-- ==== Sys2Proof/Word.lean ====
section
/-! DEFINITION. The machine's words: bytes, 16-bit words and register numbers (00_scope.md R6, R9). -/

namespace Sys2Proof

/-- The width of `V0`..`VF`, `DT`, `ST` and of one cell of memory (00_scope.md R6). -/
abbrev Byte := BitVec 8

/-- An instruction word (30_encoding.md R70). -/
abbrev Word := BitVec 16

/-- The width of `I`, `PC` and of a stack entry (00_scope.md R6). An address a rule computes from one is a `Nat` (20_memory.md R67). -/
abbrev Addr := BitVec 16

/-- The number of a general register, 0..15 (10_state.md R23). -/
abbrev Reg := Fin 16

/-- A cell of the framebuffer by column and row (10_state.md R33). -/
abbrev Pixel := Fin 64 × Fin 32

end Sys2Proof
end

