-- ==== Sys2Proof/Config.lean ====
section
/-! DEFINITION. The fixed sizes of the core (00_scope.md R6), its open parameters (R7), and the one free value, the RAND oracle. -/

namespace Sys2Proof

/-- `MEM_SIZE`: addresses 0x000..0xFFF (00_scope.md R6, 20_memory.md R50). -/
abbrev Config.memSize : Nat := 4096

/-- `PROGRAM_BASE`: the initial PC and the ROM load address (00_scope.md R6). -/
abbrev Config.programBase : Nat := 0x200

/-- `STACK_DEPTH` (00_scope.md R6). -/
abbrev Config.stackDepth : Nat := 16

/-- `GLYPH_BYTES` (00_scope.md R7). -/
abbrev Config.glyphBytes : Nat := 5

/-- The length of `FONT_DATA`: 16 glyphs of 5 bytes (00_scope.md R7, 20_memory.md R56). -/
abbrev Config.fontSize : Nat := 80

/-- `HIGH_NIBBLE_POLICY` (00_scope.md R7): what EX9E, EXA1 and FX29 do with an operand above 0xF (42_skip.md R132). -/
inductive HighNibblePolicy where
  | mask
  | fault
deriving DecidableEq, Repr

/-- The parameters the source leaves open (00_scope.md R7). They are no state of the core (10_state.md R36); they stand in
`State` so that a statement can speak of every value of them, and nothing writes them. DESIGN CHOICE, safe: log entry 2. -/
structure Params where
  fontBase    : Addr
  fontData    : Vector Byte 80
  allowOddPc  : Bool
  highNibble  : HighNibblePolicy
deriving DecidableEq, Repr

/-- The glyphs 0..F of 20_memory.md R56, one row each, the topmost sprite row first.
PRESUMED, unsafe: the spec supplies the bytes from general knowledge (log entry 6). -/
def Config.fontRows : List (List Byte) :=
  [[0xF0, 0x90, 0x90, 0x90, 0xF0], [0x20, 0x60, 0x20, 0x20, 0x70],
   [0xF0, 0x10, 0xF0, 0x80, 0xF0], [0xF0, 0x10, 0xF0, 0x10, 0xF0]] ++
  [[0x90, 0x90, 0xF0, 0x10, 0x10], [0xF0, 0x80, 0xF0, 0x10, 0xF0],
   [0xF0, 0x80, 0xF0, 0x90, 0xF0], [0xF0, 0x10, 0x20, 0x40, 0x40]] ++
  [[0xF0, 0x90, 0xF0, 0x90, 0xF0], [0xF0, 0x90, 0xF0, 0x10, 0xF0],
   [0xF0, 0x90, 0xF0, 0x90, 0x90], [0xE0, 0x90, 0xE0, 0x90, 0xE0]] ++
  [[0xF0, 0x80, 0x80, 0x80, 0xF0], [0xE0, 0x90, 0x90, 0x90, 0xE0],
   [0xF0, 0x80, 0xF0, 0x80, 0xF0], [0xF0, 0x80, 0xF0, 0x80, 0x80]]

/-- `FONT_DATA` with its default value (20_memory.md R56). -/
def Config.fontDefault : Vector Byte 80 := ⟨⟨Config.fontRows.flatten⟩, rfl⟩

/-- The values the spec takes for the parameters (00_scope.md R7). -/
def Params.default : Params where
  fontBase   := 0x050
  fontData   := Config.fontDefault
  allowOddPc := false
  highNibble := .mask

/-- The `RAND` oracle (60_exceptions.md R268): the byte of the n-th draw. It has no body, so nothing can be proved of its
values. DESIGN CHOICE, safe: log entry 4. -/
opaque Config.rand : Nat → Byte

end Sys2Proof
end

