-- ==== Sys2Proof/Syntax.lean ====
section
/-! DEFINITION. The instruction set: one constructor per row of the opcode table (30_encoding.md R78), the fields of an
instruction word (R71), and the form of a table row. -/

namespace Sys2Proof

/-- The 33 instructions of 30_encoding.md R78, in the table's order. `x` and `y` are register numbers, `nn` an 8-bit
immediate, `nnn` a 12-bit address, `n` a sprite height (R74). -/
inductive Instr where
  /-- 00E0 `CLS` -/
  | cls
  /-- 00EE `RET` -/
  | ret
  /-- 1NNN `JP NNN` -/
  | jp (nnn : BitVec 12)
  /-- 2NNN `CALL NNN` -/
  | call (nnn : BitVec 12)
  /-- 3XNN `SE VX, NN` -/
  | seImm (x : Reg) (nn : Byte)
  /-- 4XNN `SNE VX, NN` -/
  | sneImm (x : Reg) (nn : Byte)
  /-- 5XY0 `SE VX, VY` -/
  | seReg (x y : Reg)
  /-- 6XNN `LD VX, NN` -/
  | ldImm (x : Reg) (nn : Byte)
  /-- 7XNN `ADD VX, NN` -/
  | addImm (x : Reg) (nn : Byte)
  /-- 8XY0 `LD VX, VY` -/
  | ldReg (x y : Reg)
  /-- 8XY1 `OR VX, VY` -/
  | orReg (x y : Reg)
  /-- 8XY2 `AND VX, VY` -/
  | andReg (x y : Reg)
  /-- 8XY3 `XOR VX, VY` -/
  | xorReg (x y : Reg)
  /-- 8XY4 `ADD VX, VY` -/
  | addReg (x y : Reg)
  /-- 8XY5 `SUB VX, VY` -/
  | subReg (x y : Reg)
  /-- 8XY6 `SHR VX, VY`; `y` is in the word and not read (R75) -/
  | shr (x y : Reg)
  /-- 8XY7 `SUBN VX, VY` -/
  | subnReg (x y : Reg)
  /-- 8XYE `SHL VX, VY`; `y` is in the word and not read (R75) -/
  | shl (x y : Reg)
  /-- 9XY0 `SNE VX, VY` -/
  | sneReg (x y : Reg)
  /-- ANNN `LD I, NNN` -/
  | ldI (nnn : BitVec 12)
  /-- BNNN `JP V0, NNN` -/
  | jpV0 (nnn : BitVec 12)
  /-- CXNN `RND VX, NN` -/
  | rnd (x : Reg) (nn : Byte)
  /-- DXYN `DRW VX, VY, N` -/
  | drw (x y : Reg) (n : Fin 16)
  /-- EX9E `SKP VX` -/
  | skp (x : Reg)
  /-- EXA1 `SKNP VX` -/
  | sknp (x : Reg)
  /-- FX07 `LD VX, DT` -/
  | ldVxDt (x : Reg)
  /-- FX15 `LD DT, VX` -/
  | ldDtVx (x : Reg)
  /-- FX18 `LD ST, VX` -/
  | ldStVx (x : Reg)
  /-- FX1E `ADD I, VX` -/
  | addI (x : Reg)
  /-- FX29 `LD F, VX` -/
  | ldF (x : Reg)
  /-- FX33 `LD B, VX` -/
  | ldB (x : Reg)
  /-- FX55 `LD [I], VX` -/
  | storeRegs (x : Reg)
  /-- FX65 `LD VX, [I]` -/
  | loadRegs (x : Reg)
deriving DecidableEq, Repr

/-- The operand tuple of 30_encoding.md R71 and R72: opcode nibble, X, Y, N, NN, NNN. -/
structure Fields where
  o   : BitVec 4
  x   : Reg
  y   : Reg
  n   : Fin 16
  nn  : Byte
  nnn : BitVec 12
deriving DecidableEq, Repr

/-- A row of the table of 30_encoding.md R78: the word is this instruction when `w & mask = pattern`, and `build` takes the
fields it names. -/
structure Row where
  pattern : Word
  mask    : Word
  build   : Fields → Instr

/-- Why bytes are no instruction. -/
inductive Reject where
  /-- fewer than the two bytes of an instruction (30_encoding.md R70) -/
  | truncated (length : Nat)
  /-- the word matches no row of the table (30_encoding.md R79) -/
  | unknownOpcode (w : Word)
deriving DecidableEq, Repr

end Sys2Proof
end

