-- ==== Sys2Proof/WellFormed.lean ====
section
/-! DEFINITION. The checks on what comes into the core from outside. An `Instr` needs none: the bound of every operand is in
its type, as 10_state.md R23 says of register indices ("masked to 4 bits by construction"); log entry 32. -/

namespace Sys2Proof

/-- The fields overlap, all being cut from one word (30_encoding.md R71): NN is Y then N, NNN is X, Y, N. -/
def Fields.wf (f : Fields) : Bool :=
  f.nn.toNat == 16 * f.y.val + f.n.val && f.nnn.toNat == 256 * f.x.val + 16 * f.y.val + f.n.val

/-- A ROM fits below address 0x1000 (70_reset_and_hazards.md R292). -/
def Rom.wf (rom : List Byte) : Bool := Config.programBase + rom.length ≤ Config.memSize

/-- The font lies in the reserved region [0x000,0x200) of the address map (20_memory.md R54). -/
def Params.wf (c : Params) : Bool := c.fontBase.toNat + Config.fontSize ≤ Config.programBase

end Sys2Proof
end

