-- ==== Sys2Proof/Decode.lean ====
section
/-! DEFINITION. The decoder (30_encoding.md R70 to R80) and the encoder. The decoder follows the table of R78 row by row;
the encoder follows the formats of R73. -/

namespace Sys2Proof

/-- The operand tuple of a word (30_encoding.md R71, R72). -/
def fieldsOf (w : Word) : Fields where
  o   := w.extractLsb' 12 4
  x   := (w.extractLsb' 8 4).toFin
  y   := (w.extractLsb' 4 4).toFin
  n   := (w.extractLsb' 0 4).toFin
  nn  := w.extractLsb' 0 8
  nnn := w.extractLsb' 0 12

/-- `(w & mask) == match` (30_encoding.md R78). -/
def Row.hits (r : Row) (w : Word) : Bool := w &&& r.mask == r.pattern

/-- Rows 00E0 to 7XNN. -/
def rows0 : List Row :=
  [⟨0x00E0, 0xFFFF, fun _ => .cls⟩,
   ⟨0x00EE, 0xFFFF, fun _ => .ret⟩,
   ⟨0x1000, 0xF000, fun f => .jp f.nnn⟩,
   ⟨0x2000, 0xF000, fun f => .call f.nnn⟩,
   ⟨0x3000, 0xF000, fun f => .seImm f.x f.nn⟩,
   ⟨0x4000, 0xF000, fun f => .sneImm f.x f.nn⟩,
   ⟨0x5000, 0xF00F, fun f => .seReg f.x f.y⟩,
   ⟨0x6000, 0xF000, fun f => .ldImm f.x f.nn⟩,
   ⟨0x7000, 0xF000, fun f => .addImm f.x f.nn⟩]

/-- Rows 8XY0 to 8XYE. -/
def rows8 : List Row :=
  [⟨0x8000, 0xF00F, fun f => .ldReg f.x f.y⟩,
   ⟨0x8001, 0xF00F, fun f => .orReg f.x f.y⟩,
   ⟨0x8002, 0xF00F, fun f => .andReg f.x f.y⟩,
   ⟨0x8003, 0xF00F, fun f => .xorReg f.x f.y⟩,
   ⟨0x8004, 0xF00F, fun f => .addReg f.x f.y⟩,
   ⟨0x8005, 0xF00F, fun f => .subReg f.x f.y⟩,
   ⟨0x8006, 0xF00F, fun f => .shr f.x f.y⟩,
   ⟨0x8007, 0xF00F, fun f => .subnReg f.x f.y⟩,
   ⟨0x800E, 0xF00F, fun f => .shl f.x f.y⟩]

/-- Rows 9XY0 to EXA1. -/
def rows9 : List Row :=
  [⟨0x9000, 0xF00F, fun f => .sneReg f.x f.y⟩,
   ⟨0xA000, 0xF000, fun f => .ldI f.nnn⟩,
   ⟨0xB000, 0xF000, fun f => .jpV0 f.nnn⟩,
   ⟨0xC000, 0xF000, fun f => .rnd f.x f.nn⟩,
   ⟨0xD000, 0xF000, fun f => .drw f.x f.y f.n⟩,
   ⟨0xE09E, 0xF0FF, fun f => .skp f.x⟩,
   ⟨0xE0A1, 0xF0FF, fun f => .sknp f.x⟩]

/-- Rows FX07 to FX65. -/
def rowsF : List Row :=
  [⟨0xF007, 0xF0FF, fun f => .ldVxDt f.x⟩,
   ⟨0xF015, 0xF0FF, fun f => .ldDtVx f.x⟩,
   ⟨0xF018, 0xF0FF, fun f => .ldStVx f.x⟩,
   ⟨0xF01E, 0xF0FF, fun f => .addI f.x⟩,
   ⟨0xF029, 0xF0FF, fun f => .ldF f.x⟩,
   ⟨0xF033, 0xF0FF, fun f => .ldB f.x⟩,
   ⟨0xF055, 0xF0FF, fun f => .storeRegs f.x⟩,
   ⟨0xF065, 0xF0FF, fun f => .loadRegs f.x⟩]

/-- The table of 30_encoding.md R78, in its order. -/
def opcodeTable : List Row := rows0 ++ rows8 ++ rows9 ++ rowsF

/-- The instruction of the row a word matches; none for an unknown word (30_encoding.md R79, R93). -/
def decodeWord (w : Word) : Option Instr :=
  match opcodeTable.find? (·.hits w) with
  | some r => some (r.build (fieldsOf w))
  | none => none

/-- The instruction word of two bytes, the byte at the lower address being the high one (20_memory.md R53). -/
def wordOfBytes (hi lo : Byte) : Word := hi ++ lo

/-- The first instruction of a byte sequence and the bytes after it, or the reason there is none (30_encoding.md R70). -/
def decode (bytes : List Byte) : Except Reject (Instr × List Byte) :=
  match bytes with
  | hi :: lo :: rest =>
    match decodeWord (wordOfBytes hi lo) with
    | some i => .ok (i, rest)
    | none => .error (.unknownOpcode (wordOfBytes hi lo))
  | short => .error (.truncated short.length)

/-- A register number or a count as a 4-bit field. -/
def nibble (x : Fin 16) : BitVec 4 := BitVec.ofNat 4 x.val

/-- Format A (30_encoding.md R73): opcode nibble, NNN. -/
def wordA (o : BitVec 4) (nnn : BitVec 12) : Word := o ++ nnn

/-- Formats XNN and XF (30_encoding.md R73): opcode nibble, X, a byte. -/
def wordXNN (o : BitVec 4) (x : Reg) (nn : Byte) : Word := o ++ (nibble x ++ nn)

/-- Formats XY and XYN (30_encoding.md R73): opcode nibble, X, Y, a digit. -/
def wordXYN (o : BitVec 4) (x y : Reg) (d : BitVec 4) : Word := o ++ (nibble x ++ (nibble y ++ d))

/-- The word of an instruction (30_encoding.md R73, R78). -/
def encode (i : Instr) : Word :=
  match i with
  | .cls => 0x00E0
  | .ret => 0x00EE
  | .jp nnn => wordA 0x1 nnn
  | .call nnn => wordA 0x2 nnn
  | .seImm x nn => wordXNN 0x3 x nn
  | .sneImm x nn => wordXNN 0x4 x nn
  | .seReg x y => wordXYN 0x5 x y 0x0
  | .ldImm x nn => wordXNN 0x6 x nn
  | .addImm x nn => wordXNN 0x7 x nn
  | .ldReg x y => wordXYN 0x8 x y 0x0
  | .orReg x y => wordXYN 0x8 x y 0x1
  | .andReg x y => wordXYN 0x8 x y 0x2
  | .xorReg x y => wordXYN 0x8 x y 0x3
  | .addReg x y => wordXYN 0x8 x y 0x4
  | .subReg x y => wordXYN 0x8 x y 0x5
  | .shr x y => wordXYN 0x8 x y 0x6
  | .subnReg x y => wordXYN 0x8 x y 0x7
  | .shl x y => wordXYN 0x8 x y 0xE
  | .sneReg x y => wordXYN 0x9 x y 0x0
  | .ldI nnn => wordA 0xA nnn
  | .jpV0 nnn => wordA 0xB nnn
  | .rnd x nn => wordXNN 0xC x nn
  | .drw x y n => wordXYN 0xD x y (nibble n)
  | .skp x => wordXNN 0xE x 0x9E
  | .sknp x => wordXNN 0xE x 0xA1
  | .ldVxDt x => wordXNN 0xF x 0x07
  | .ldDtVx x => wordXNN 0xF x 0x15
  | .ldStVx x => wordXNN 0xF x 0x18
  | .addI x => wordXNN 0xF x 0x1E
  | .ldF x => wordXNN 0xF x 0x29
  | .ldB x => wordXNN 0xF x 0x33
  | .storeRegs x => wordXNN 0xF x 0x55
  | .loadRegs x => wordXNN 0xF x 0x65

/-- The two bytes of a word as memory holds them, the high byte first (20_memory.md R53). -/
def bytesOfWord (w : Word) : List Byte := [w.extractLsb' 8 8, w.extractLsb' 0 8]

/-- The bytes of an instruction. -/
def encodeBytes (i : Instr) : List Byte := bytesOfWord (encode i)

/-- The word of a table row whose `nbits` bits are `w`: bit 0 is the least significant, bits from `nbits` on are 0. -/
def tableWord (nbits w : Nat) : Word := BitVec.ofNat 16 (w % 2 ^ nbits)

/-- What the decoder reads from that word laid out in memory's byte order. -/
def decodeTableWord (nbits w : Nat) : Option Instr :=
  match decode (bytesOfWord (tableWord nbits w)) with
  | .ok (i, _) => some i
  | .error _ => none

end Sys2Proof
end

