-- ==== Sys2Proof/Machine/State.lean ====
section
/-! DEFINITION. The state of the core (10_state.md R36), its fault and refusal reasons, and its value at reset (R38). -/

namespace Sys2Proof.Machine

/-- The fault values of 60_exceptions.md R250. A step that raises one answers the next state with the latch set (log entry 1);
`step` answers one of them as its outcome only on a core whose latch already holds it (30_encoding.md R98). All are safe. -/
inductive Fault where
  /-- Raised by the fetch (30_encoding.md R91), DXYN, FX33, FX55 and FX65 (44_index_memory.md R184): the lowest byte address of
  4096 or more that the step would access; it fits in 16 bits (90_conflicts.md C8). Safe. -/
  | invalidAddress (addr : Addr)
  /-- Raised by the dispatch of a word that matches no row (30_encoding.md R93): the word. Safe. -/
  | unknownOpcode (w : Word)
  /-- Raised by 2NNN with SP = 16 (41_control_flow.md R104). Safe. -/
  | stackOverflow
  /-- Raised by 00EE with SP = 0 (41_control_flow.md R100). Safe. -/
  | stackUnderflow
  /-- Raised by no rule: register numbers are 4-bit fields (10_state.md R23). Safe. -/
  | registerIndexInvariant
  /-- Raised by the fetch at an odd PC when ALLOW_ODD_PC is false (30_encoding.md R92): the odd PC. Safe. -/
  | misalignedPc (pc : Addr)
  /-- Raised by EX9E, EXA1 and FX29 on an operand above 0xF when HIGH_NIBBLE_POLICY is fault (42_skip.md R132): the word. Safe. -/
  | operandOutOfRange (w : Word)
deriving DecidableEq, Repr

/-- What the model gives no run to. -/
inductive Refusal where
  /-- Raised by an arm of `exec` whose instruction has no meaning; no arm is left so. Safe. -/
  | notModelled (mnemonic : String)
  /-- Raised by `create` and `hardReset` on a ROM of more than 3584 bytes: no session (70_reset_and_hazards.md R292). Safe. -/
  | romTooLarge (length : Nat)
deriving DecidableEq, Repr

/-- The display effect a completed step reports (30_encoding.md R96). The set of cells is a list with no repeats, in drawing
order for DXYN and in row-major order for 00E0 (log entry 22). -/
inductive Effect where
  | none
  | toggled (cells : List Pixel) (collision : Bool)
deriving DecidableEq, Repr

/-- What a call of `step()` returns (30_encoding.md R95). -/
inductive StepResult where
  /-- no step since the session was created -/
  | noStep
  | ok (effect : Effect)
  | fault (kind : Fault)
deriving DecidableEq, Repr

/-- 64 columns by 32 rows, held row by row (10_state.md R33). -/
abbrev Framebuffer := Vector (Vector Bool 64) 32

/-- The bytes of memory that differ from their content at reset, by rising address (20_memory.md R50, R55). -/
abbrev Memory := List Host.Cell

/-- The state record of 10_state.md R36, and after it the three fields that are the model's own. -/
structure State where
  /-- V0..VF (10_state.md R20) -/
  v      : Vector Byte 16
  /-- I (10_state.md R24) -/
  i      : Addr
  /-- PC (10_state.md R25) -/
  pc     : Addr
  /-- SP, the number of occupied stack entries, 0..16 (10_state.md R27) -/
  sp     : Fin 17
  /-- the call stack (10_state.md R28) -/
  stack  : Vector Addr 16
  /-- DT (10_state.md R29) -/
  dt     : Byte
  /-- ST (10_state.md R30) -/
  st     : Byte
  /-- the keypad (10_state.md R32) -/
  key    : Vector Bool 16
  /-- the framebuffer (10_state.md R33) -/
  fb     : Framebuffer
  /-- the memory (20_memory.md R50) -/
  mem    : Memory
  /-- the fault latch: the fault and the PC of the step that raised it (10_state.md R35) -/
  fault  : Option (Fault × Addr)
  /-- the parameters of 00_scope.md R7; nothing writes them (log entry 2) -/
  cfg    : Params
  /-- the position of the RAND oracle, the model's own counter (60_exceptions.md R268; log entry 4) -/
  draws  : Nat
  /-- what the last call of `step()` returned, an output and not state of the core (30_encoding.md R96; log entry 3) -/
  result : StepResult
deriving DecidableEq, Repr

/-- The core right after reset, with no ROM placed (10_state.md R38). Log entries 3, 4 and 5. -/
def State.reset : State where
  v      := Vector.replicate 16 0
  i      := 0
  pc     := 0x200
  sp     := 0
  stack  := Vector.replicate 16 0
  dt     := 0
  st     := 0
  key    := Vector.replicate 16 false
  fb     := Vector.replicate 32 (Vector.replicate 64 false)
  mem    := []
  fault  := none
  cfg    := Params.default
  draws  := 0
  result := .noStep

/-- The three outcomes over this machine's types. -/
abbrev Answer := Host.Outcome State Fault Refusal

end Sys2Proof.Machine
end

