-- ==== Sys2Proof/Machine/Memory.lean ====
section
/-! DEFINITION. The memory: what an unlisted address reads as, the canonical form, and the two primitives `MemRead` and
`MemWrite` (00_scope.md R10). -/

namespace Sys2Proof.Machine

/-- The content of an address at session creation, before a ROM is placed: the font region, else zero (20_memory.md R55). -/
def Memory.unlisted (c : Params) (a : Nat) : Byte :=
  if h : c.fontBase.toNat ≤ a ∧ a < c.fontBase.toNat + 80 then c.fontData[a - c.fontBase.toNat] else 0

/-- `MemRead(addr, 1)` (00_scope.md R10, 20_memory.md R61). -/
def Memory.read (c : Params) (m : Memory) (a : Nat) : Byte :=
  match m with
  | [] => Memory.unlisted c a
  | (b, v) :: rest => if b = a then v else Memory.read c rest a

/-- The list with `v` at address `a`, at its place by rising address. -/
def Memory.insert (m : Memory) (a : Nat) (v : Byte) : Memory :=
  match m with
  | [] => [(a, v)]
  | (b, u) :: rest =>
    if a < b then (a, v) :: (b, u) :: rest
    else if b = a then (a, v) :: rest
    else (b, u) :: Memory.insert rest a v

/-- The list without an entry for `a`. -/
def Memory.erase (m : Memory) (a : Nat) : Memory :=
  match m with
  | [] => []
  | (b, u) :: rest => if b = a then Memory.erase rest a else (b, u) :: Memory.erase rest a

/-- `MemWrite(addr, 1, v)` (00_scope.md R10). An access at 4096 or more is not performed (20_memory.md R51); the instruction
rules check every address first, so none of them asks for one (log entry 27). -/
def Memory.write (c : Params) (m : Memory) (a : Nat) (v : Byte) : Memory :=
  if Config.memSize ≤ a then m
  else if v = Memory.unlisted c a then Memory.erase m a
  else Memory.insert m a v

/-- Every entry of the list lies above address `a`. -/
def Memory.above (a : Nat) (m : Memory) : Bool := m.all fun e => a < e.1

/-- The addresses rise strictly. -/
def Memory.rising (m : Memory) : Bool :=
  match m with
  | [] => true
  | (a, _) :: rest => Memory.above a rest && Memory.rising rest

/-- The canonical form: addresses rise strictly, lie below 4096, and no entry says what an unlisted address reads as. -/
def Memory.wf (c : Params) (m : Memory) : Bool :=
  Memory.rising m && m.all fun e => decide (e.1 < Config.memSize) && e.2 != Memory.unlisted c e.1

/-- Bytes written at consecutive addresses from `a`, in the order of the list (44_index_memory.md R192, R195). -/
def Memory.writeAll (c : Params) (m : Memory) (a : Nat) (bytes : List Byte) : Memory :=
  match bytes with
  | [] => m
  | b :: rest => Memory.writeAll c (Memory.write c m a b) (a + 1) rest

end Sys2Proof.Machine
end

