-- ==== Sys2Proof/Machine/Ops.lean ====
section
/-! DEFINITION. The named operations over the state: one writer per field, registers, memory, the range checks, raising a
fault, completing a step, the stack, the fetch, and the RAND draw. -/

namespace Sys2Proof.Machine

/-! ### One writer per field -/

def setVs (v : Vector Byte 16) (s : State) : State := { s with v := v }
def setI (a : Addr) (s : State) : State := { s with i := a }
def setPc (a : Addr) (s : State) : State := { s with pc := a }
def setSp (n : Fin 17) (s : State) : State := { s with sp := n }
def setStack (st : Vector Addr 16) (s : State) : State := { s with stack := st }
def setDt (b : Byte) (s : State) : State := { s with dt := b }
def setSt (b : Byte) (s : State) : State := { s with st := b }
def setKey (k : Vector Bool 16) (s : State) : State := { s with key := k }
def setFb (f : Framebuffer) (s : State) : State := { s with fb := f }
def setMem (m : Memory) (s : State) : State := { s with mem := m }
def setFault (f : Option (Fault × Addr)) (s : State) : State := { s with fault := f }
def setDraws (n : Nat) (s : State) : State := { s with draws := n }
def setResult (r : StepResult) (s : State) : State := { s with result := r }

/-! ### General registers (10_state.md R20) -/

/-- `V[x]` -/
def getV (s : State) (x : Reg) : Byte := s.v[x.val]

/-- `V[x] <- b` -/
def setV (x : Reg) (b : Byte) (s : State) : State := setVs (s.v.set x.val b) s

/-- VF, the flag register (10_state.md R21). -/
def vf : Reg := 15

/-! ### Memory (00_scope.md R10) -/

/-- `MemRead(a, 1)` -/
def readByte (s : State) (a : Nat) : Byte := Memory.read s.cfg s.mem a

/-- `MemWrite(a, 1, b)` -/
def writeByte (a : Nat) (b : Byte) (s : State) : State := setMem (Memory.write s.cfg s.mem a b) s

/-- The `count` bytes at `a`, `a + 1`, ... -/
def readBytes (s : State) (a count : Nat) : List Byte := (List.range count).map fun k => readByte s (a + k)

/-- Bytes stored at `a`, `a + 1`, ... -/
def writeBytes (a : Nat) (bytes : List Byte) (s : State) : State := setMem (Memory.writeAll s.cfg s.mem a bytes) s

/-- `check_range(base, count)` (44_index_memory.md R184): the fault of the lowest failing address, if one fails. -/
def checkRange (base : Addr) (count : Nat) : Option Fault :=
  match (List.range count).find? fun k => Config.memSize ≤ base.toNat + k with
  | some k => some (.invalidAddress (BitVec.ofNat 16 (base.toNat + k)))
  | none => none

/-! ### How a step ends -/

/-- `raise Fault(kind)` (30_encoding.md R95, 60_exceptions.md R252): no write of the step takes effect, the latch holds the
fault and the PC of the step, and the call returns `Fault(kind)`. Nothing returns from it (60_exceptions.md R255): only
`create` and `hardReset` clear the latch (70_reset_and_hazards.md R290). Log entry 1. -/
def raise (kind : Fault) (s : State) : Answer := .next (setResult (.fault kind) (setFault (some (kind, s.pc)) s))

/-- The step returns `Ok(effect)` (30_encoding.md R95, R96). -/
def complete (effect : Effect) (s : State) : Answer := .next (setResult (.ok effect) s)

/-- `next`, the address of the following instruction (30_encoding.md R90). -/
def nextPc (s : State) : Addr := s.pc + 2

/-- `PC <- next` and the effect `none`: how the instructions that do not transfer control end (30_encoding.md R94). -/
def advance (s : State) : Answer := complete .none (setPc (nextPc s) s)

/-- `PC <- next + 2` if the condition holds, else `PC <- next` (42_skip.md R119). -/
def skipIf (cond : Bool) (s : State) : Answer :=
  complete .none (setPc (if cond then nextPc s + 2 else nextPc s) s)

/-- A transfer of control to `target`, which no rule checks when it is written (41_control_flow.md R108). -/
def jumpTo (target : Addr) (s : State) : Answer := complete .none (setPc target s)

/-! ### The call stack (10_state.md R27, R28) -/

/-- `stack[SP] <- a; SP <- SP + 1`; none when SP = 16 (41_control_flow.md R104). -/
def push (a : Addr) (s : State) : Option State :=
  if h : s.sp.val < 16 then some (setSp ⟨s.sp.val + 1, by omega⟩ (setStack (s.stack.set s.sp.val a) s)) else none

/-- `SP <- SP - 1`, with `stack[SP]`; none when SP = 0. The popped entry stays in place (41_control_flow.md R100). -/
def pop (s : State) : Option (Addr × State) :=
  if h : 0 < s.sp.val then
    some (s.stack[s.sp.val - 1]'(by have := s.sp.isLt; omega), setSp ⟨s.sp.val - 1, by have := s.sp.isLt; omega⟩ s)
  else none

/-! ### The fetch -/

/-- `check_fetch(pc)`: the range first, then the alignment (30_encoding.md R91, R92). -/
def checkFetch (s : State) : Option Fault :=
  if Config.memSize ≤ s.pc.toNat then some (.invalidAddress s.pc)
  else if Config.memSize ≤ s.pc.toNat + 1 then some (.invalidAddress (s.pc + 1))
  else if s.pc.toNat % 2 = 1 ∧ s.cfg.allowOddPc = false then some (.misalignedPc s.pc)
  else none

/-- The two bytes at PC and PC + 1 as a word, high byte first (20_memory.md R53). -/
def fetchWord (s : State) : Word := wordOfBytes (readByte s s.pc.toNat) (readByte s (s.pc.toNat + 1))

/-! ### The random source -/

/-- `rand8()` (60_exceptions.md R268): one draw from the oracle. -/
def rand8 (s : State) : Byte × State := (Config.rand s.draws, setDraws (s.draws + 1) s)

/-! ### Placing an instruction for the next fetch -/

/-- `s` with nothing between it and a fetch: the latch clear and, where PC cannot be fetched from, PC at 0x200. -/
def readyToFetch (s : State) : State :=
  match checkFetch s with
  | some _ => setPc (BitVec.ofNat 16 Config.programBase) (setFault none s)
  | none => setFault none s

/-- `s` with the word `w` in memory at PC, high byte first. -/
def placeWord (w : Word) (s : State) : State := writeBytes s.pc.toNat (bytesOfWord w) s

end Sys2Proof.Machine
end

