-- ==== Sys2Proof/Machine/Operands.lean ====
section
/-! DEFINITION. The operand forms (30_encoding.md R74): registers, immediates, addresses, the key or digit in the low nibble
of a register, the registers V0..VX, and the bytes of a sprite. -/

namespace Sys2Proof.Machine

/-- `zext_16(NNN)` (00_scope.md R9, 30_encoding.md R74). -/
def zextAddr (nnn : BitVec 12) : Addr := nnn.setWidth 16

/-- `zext_16(V[x])` (00_scope.md R9). -/
def zextByte (b : Byte) : Addr := b.setWidth 16

/-- The low nibble of a byte. -/
def lowNibble (b : Byte) : Fin 16 := (b.extractLsb' 0 4).toFin

/-- `nibble_operand(v, w)` (42_skip.md R132): a key number or a digit; none where it raises `OperandOutOfRange`. -/
def nibbleOperand (c : Params) (b : Byte) : Option (Fin 16) :=
  if b.toNat ≤ 15 then some (lowNibble b)
  else
    match c.highNibble with
    | .mask => some (lowNibble b)
    | .fault => none

/-- The address of the glyph of digit `d`: `FONT_BASE + 5 * d` (20_memory.md R57). -/
def glyphAddr (c : Params) (d : Fin 16) : Addr := BitVec.ofNat 16 (c.fontBase.toNat + Config.glyphBytes * d.val)

/-- `V[0]`, ..., `V[x]` (44_index_memory.md R195). -/
def firstRegs (s : State) (x : Reg) : List Byte := s.v.toList.take (x.val + 1)

/-- The registers with the bytes loaded into `V[k]`, `V[k + 1]`, ... (44_index_memory.md R198). -/
def loadFrom (k : Nat) (bytes : List Byte) (v : Vector Byte 16) : Vector Byte 16 :=
  match bytes with
  | [] => v
  | b :: rest => loadFrom (k + 1) rest (v.setIfInBounds k b)

/-- The three decimal digits of a byte, hundreds first (44_index_memory.md R192). -/
def decimalDigits (b : Byte) : List Byte :=
  [BitVec.ofNat 8 (b.toNat / 100), BitVec.ofNat 8 (b.toNat / 10 % 10), BitVec.ofNat 8 (b.toNat % 10)]

/-! ### Sprites (46_display.md R224) -/

/-- The columns and rows, not yet wrapped, of the 1-bits of one sprite row; bit 7 is the leftmost pixel.
PRESUMED, unsafe: the spec supplies the bit order from general knowledge (log entry 16). -/
def rowPixels (x0 y : Nat) (b : Byte) : List (Nat × Nat) :=
  ((List.range 8).filter fun c => b.getLsbD (7 - c)).map fun c => (x0 + c, y)

/-- The 1-bits of a sprite whose rows are `rows`, in drawing order. -/
def spritePixels (x0 y0 : Nat) (rows : List Byte) : List (Nat × Nat) :=
  match rows with
  | [] => []
  | b :: rest => rowPixels x0 y0 b ++ spritePixels x0 (y0 + 1) rest

end Sys2Proof.Machine
end

