-- ==== Sys2Proof/Machine/Flags.lean ====
section
/-! DEFINITION. What the flag-writing instructions put in VF (10_state.md R21), each from the operands before the operation
(43_alu.md R162). -/

namespace Sys2Proof.Machine

/-- A flag as the value of VF. -/
def flagByte (b : Bool) : Byte := if b then 1 else 0

/-- The carry out of bit 7 of `a + b` (43_alu.md R152). -/
def carryFlag (a b : Byte) : Byte := flagByte (256 ≤ a.toNat + b.toNat)

/-- The not-borrow of `a - b` (43_alu.md R154, R157). -/
def notBorrowFlag (a b : Byte) : Byte := flagByte (b.toNat ≤ a.toNat)

/-- The bit a right shift by one moves out (43_alu.md R156). -/
def shiftedOutRight (a : Byte) : Byte := a &&& 1

/-- The bit a left shift by one moves out (43_alu.md R158). -/
def shiftedOutLeft (a : Byte) : Byte := (a >>> 7) &&& 1

/-- Whether a draw met a lit cell (46_display.md R224). -/
def collisionFlag (col : Bool) : Byte := flagByte col

end Sys2Proof.Machine
end

