-- ==== Sys2Proof/Machine/Alu.lean ====
section
/-! DEFINITION. Register loads and arithmetic (43_alu.md): 6XNN, 7XNN, 8XY0 to 8XYE, CXNN. -/

namespace Sys2Proof.Machine

/-- 6XNN (43_alu.md R140). -/
def execLdImm (x : Reg) (nn : Byte) (s : State) : Answer := advance (setV x nn s)

/-- 7XNN (43_alu.md R142): no flag. -/
def execAddImm (x : Reg) (nn : Byte) (s : State) : Answer := advance (setV x (getV s x + nn) s)

/-- 8XY0 (43_alu.md R144). -/
def execLdReg (x y : Reg) (s : State) : Answer := advance (setV x (getV s y) s)

/-- 8XY1 (43_alu.md R146). -/
def execOrReg (x y : Reg) (s : State) : Answer := advance (setV x (getV s x ||| getV s y) s)

/-- 8XY2 (43_alu.md R148). -/
def execAndReg (x y : Reg) (s : State) : Answer := advance (setV x (getV s x &&& getV s y) s)

/-- 8XY3 (43_alu.md R150). -/
def execXorReg (x y : Reg) (s : State) : Answer := advance (setV x (getV s x ^^^ getV s y) s)

/-- The result first and the flag last, both from the old operands (43_alu.md R159). -/
def setResultThenFlag (x : Reg) (r flag : Byte) (s : State) : State := setV vf flag (setV x r s)

/-- The flag first and the result last, both from the old operands (43_alu.md R159). -/
def setFlagThenResult (x : Reg) (r flag : Byte) (s : State) : State := setV x r (setV vf flag s)

/-- 8XY4 (43_alu.md R152). -/
def execAddReg (x y : Reg) (s : State) : Answer :=
  advance (setResultThenFlag x (getV s x + getV s y) (carryFlag (getV s x) (getV s y)) s)

/-- 8XY5 (43_alu.md R154). -/
def execSubReg (x y : Reg) (s : State) : Answer :=
  advance (setResultThenFlag x (getV s x - getV s y) (notBorrowFlag (getV s x) (getV s y)) s)

/-- 8XY6 (43_alu.md R156): V[Y] is not read. -/
def execShr (x _y : Reg) (s : State) : Answer :=
  advance (setFlagThenResult x (getV s x >>> 1) (shiftedOutRight (getV s x)) s)

/-- 8XY7 (43_alu.md R157). -/
def execSubnReg (x y : Reg) (s : State) : Answer :=
  advance (setResultThenFlag x (getV s y - getV s x) (notBorrowFlag (getV s y) (getV s x)) s)

/-- 8XYE (43_alu.md R158): V[Y] is not read. -/
def execShl (x _y : Reg) (s : State) : Answer :=
  advance (setFlagThenResult x (getV s x <<< 1) (shiftedOutLeft (getV s x)) s)

/-- CXNN (43_alu.md R160): one draw. -/
def execRnd (x : Reg) (nn : Byte) (s : State) : Answer :=
  match rand8 s with
  | (r, t) => advance (setV x (r &&& nn) t)

end Sys2Proof.Machine
end

