-- ==== Sys2Proof/Machine/Control.lean ====
section
/-! DEFINITION. Control transfer (41_control_flow.md): 00EE, 1NNN, 2NNN, BNNN. -/

namespace Sys2Proof.Machine

/-- 00EE (41_control_flow.md R100). -/
def execRet (s : State) : Answer :=
  match pop s with
  | none => raise .stackUnderflow s
  | some (a, t) => jumpTo a t

/-- 1NNN (41_control_flow.md R102). -/
def execJp (nnn : BitVec 12) (s : State) : Answer := jumpTo (zextAddr nnn) s

/-- 2NNN (41_control_flow.md R104). -/
def execCall (nnn : BitVec 12) (s : State) : Answer :=
  match push (nextPc s) s with
  | none => raise .stackOverflow s
  | some t => jumpTo (zextAddr nnn) t

/-- BNNN (41_control_flow.md R106): the register is always V0. -/
def execJpV0 (nnn : BitVec 12) (s : State) : Answer := jumpTo (zextByte (getV s 0) + zextAddr nnn) s

end Sys2Proof.Machine
end

