-- ==== Sys2Proof/Machine/Display.lean ====
section
/-! DEFINITION. The framebuffer's primitives and the display instructions (46_display.md): 00E0, DXYN. -/

namespace Sys2Proof.Machine

/-- `fb[x][y]` -/
def getPixel (f : Framebuffer) (p : Pixel) : Bool := f[p.2.val][p.1.val]

/-- `fb[x][y] <- b` -/
def setPixel (p : Pixel) (b : Bool) (f : Framebuffer) : Framebuffer :=
  f.set p.2.val (f[p.2.val].set p.1.val b)

/-- `(x mod 64, y mod 32)` (46_display.md R222). -/
def wrapPixel (q : Nat × Nat) : Pixel := (⟨q.1 % 64, Nat.mod_lt _ (by decide)⟩, ⟨q.2 % 32, Nat.mod_lt _ (by decide)⟩)

/-- `toggle(x, y)` (46_display.md R222): the framebuffer after it, and whether the cell was on. -/
def toggle (q : Nat × Nat) (f : Framebuffer) : Framebuffer × Bool :=
  (setPixel (wrapPixel q) (!getPixel f (wrapPixel q)) f, getPixel f (wrapPixel q))

/-- One toggle per pixel, in order, and whether some cell was on (46_display.md R224). -/
def toggleAll (qs : List (Nat × Nat)) (f : Framebuffer) : Framebuffer × Bool :=
  match qs with
  | [] => (f, false)
  | q :: rest => ((toggleAll rest (toggle q f).1).1, (toggle q f).2 || (toggleAll rest (toggle q f).1).2)

/-- `clear()` (46_display.md R223). -/
def blankScreen : Framebuffer := Vector.replicate 32 (Vector.replicate 64 false)

/-- The lit columns of a row, from column `c` on. -/
def litInRow (y : Fin 32) (cells : List Bool) (c : Nat) : List Pixel :=
  match cells with
  | [] => []
  | b :: rest => if h : b = true ∧ c < 64 then (⟨c, h.2⟩, y) :: litInRow y rest (c + 1) else litInRow y rest (c + 1)

/-- The lit cells of the rows from row `r` on, in row-major order (46_display.md R220). -/
def litInRows (rows : List (Vector Bool 64)) (r : Nat) : List Pixel :=
  match rows with
  | [] => []
  | row :: rest => if h : r < 32 then litInRow ⟨r, h⟩ row.toList 0 ++ litInRows rest (r + 1) else []

/-- The cells that are on. -/
def litCells (f : Framebuffer) : List Pixel := litInRows f.toList 0

/-- 00E0 (46_display.md R220). -/
def execCls (s : State) : Answer :=
  complete (.toggled (litCells s.fb) false) (setPc (nextPc s) (setFb blankScreen s))

/-- The pixels DXYN toggles (46_display.md R224): the coordinates and I as they stand before VF is written. -/
def drawnPixels (x y : Reg) (n : Fin 16) (s : State) : List (Nat × Nat) :=
  spritePixels (getV s x).toNat (getV s y).toNat (readBytes s s.i.toNat n.val)

/-- DXYN (46_display.md R224). -/
def execDrw (x y : Reg) (n : Fin 16) (s : State) : Answer :=
  match checkRange s.i n.val with
  | some k => raise k s
  | none =>
    match toggleAll (drawnPixels x y n s) s.fb with
    | (f, col) =>
      complete (.toggled ((drawnPixels x y n s).map wrapPixel) col)
        (setPc (nextPc s) (setV vf (collisionFlag col) (setFb f s)))

end Sys2Proof.Machine
end

