-- ==== Sys2Proof/Machine/IndexMemory.lean ====
section
/-! DEFINITION. The index register and memory access (44_index_memory.md): ANNN, FX1E, FX29, FX33, FX55, FX65. -/

namespace Sys2Proof.Machine

/-- ANNN (44_index_memory.md R180). -/
def execLdI (nnn : BitVec 12) (s : State) : Answer := advance (setI (zextAddr nnn) s)

/-- FX1E (44_index_memory.md R182): modulo 65536, no flag. -/
def execAddI (x : Reg) (s : State) : Answer := advance (setI (s.i + zextByte (getV s x)) s)

/-- FX29 (44_index_memory.md R189); the fault records the instruction's word (log entry 26). -/
def execLdF (x : Reg) (s : State) : Answer :=
  match nibbleOperand s.cfg (getV s x) with
  | none => raise (.operandOutOfRange (encode (.ldF x))) s
  | some d => advance (setI (glyphAddr s.cfg d) s)

/-- FX33 (44_index_memory.md R192). -/
def execLdB (x : Reg) (s : State) : Answer :=
  match checkRange s.i 3 with
  | some k => raise k s
  | none => advance (writeBytes s.i.toNat (decimalDigits (getV s x)) s)

/-- FX55 (44_index_memory.md R195): I is unchanged. -/
def execStoreRegs (x : Reg) (s : State) : Answer :=
  match checkRange s.i (x.val + 1) with
  | some k => raise k s
  | none => advance (writeBytes s.i.toNat (firstRegs s x) s)

/-- FX65 (44_index_memory.md R198): I is unchanged. -/
def execLoadRegs (x : Reg) (s : State) : Answer :=
  match checkRange s.i (x.val + 1) with
  | some k => raise k s
  | none => advance (setVs (loadFrom 0 (readBytes s s.i.toNat (x.val + 1)) s.v) s)

end Sys2Proof.Machine
end

