-- ==== Sys2Proof/Machine/Skip.lean ====
section
/-! DEFINITION. Conditional skips (42_skip.md): 3XNN, 4XNN, 5XY0, 9XY0, EX9E, EXA1. -/

namespace Sys2Proof.Machine

/-- 3XNN (42_skip.md R120). -/
def execSeImm (x : Reg) (nn : Byte) (s : State) : Answer := skipIf (getV s x == nn) s

/-- 4XNN (42_skip.md R122). -/
def execSneImm (x : Reg) (nn : Byte) (s : State) : Answer := skipIf (getV s x != nn) s

/-- 5XY0 (42_skip.md R124). -/
def execSeReg (x y : Reg) (s : State) : Answer := skipIf (getV s x == getV s y) s

/-- 9XY0 (42_skip.md R126). -/
def execSneReg (x y : Reg) (s : State) : Answer := skipIf (getV s x != getV s y) s

/-- EX9E (42_skip.md R128); the fault records the instruction's word (log entry 26). -/
def execSkp (x : Reg) (s : State) : Answer :=
  match nibbleOperand s.cfg (getV s x) with
  | none => raise (.operandOutOfRange (encode (.skp x))) s
  | some k => skipIf s.key[k.val] s

/-- EXA1 (42_skip.md R130); the fault records the instruction's word (log entry 26). -/
def execSknp (x : Reg) (s : State) : Answer :=
  match nibbleOperand s.cfg (getV s x) with
  | none => raise (.operandOutOfRange (encode (.sknp x))) s
  | some k => skipIf (!s.key[k.val]) s

end Sys2Proof.Machine
end

