-- ==== Sys2Proof/Machine/Timers.lean ====
section
/-! DEFINITION. Timer access (45_timers.md): FX07, FX15, FX18. -/

namespace Sys2Proof.Machine

/-- FX07 (45_timers.md R210). -/
def execLdVxDt (x : Reg) (s : State) : Answer := advance (setV x s.dt s)

/-- FX15 (45_timers.md R212). -/
def execLdDtVx (x : Reg) (s : State) : Answer := advance (setDt (getV s x) s)

/-- FX18 (45_timers.md R214). -/
def execLdStVx (x : Reg) (s : State) : Answer := advance (setSt (getV s x) s)

end Sys2Proof.Machine
end

