-- ==== Sys2Proof/Machine/Step.lean ====
section
/-! DEFINITION. The step cycle (30_encoding.md R90) and the placing of an instruction for it. -/

namespace Sys2Proof.Machine

/-- `step()` (30_encoding.md R90): the latch (R98), the fetch checks (R91, R92), the fetch, the dispatch (R93), the
instruction; so the priority is that of 60_exceptions.md R254. -/
def step (s : State) : Host.Outcome State Fault Refusal :=
  match s.fault with
  | some (kind, _) => .fault kind
  | none =>
    match checkFetch s with
    | some kind => raise kind s
    | none =>
      match decodeWord (fetchWord s) with
      | none => raise (.unknownOpcode (fetchWord s)) s
      | some i => exec i s

/-- `s` with the table word stored where `step` fetches next; log entry 7. -/
def State.withFetchWord (s : State) (nbits w : Nat) : State := placeWord (tableWord nbits w) (readyToFetch s)

end Sys2Proof.Machine
end

