-- ==== Sys2Proof/Machine/HostInterface.lean ====
section
/-! DEFINITION. The six calls of the host (60_exceptions.md R270) and their interleaving (R272). -/

namespace Sys2Proof.Machine

/-- `create(rom)` (70_reset_and_hazards.md R290, R292): the reset state with the ROM placed, or no session. The caller says
the parameters and the position of the RAND oracle (log entries 2 and 4). -/
def create (c : Params) (draws : Nat) (rom : List Byte) : Answer :=
  if Rom.wf rom then
    .next { State.reset with cfg := c, draws := draws, mem := Memory.writeAll c [] Config.programBase rom }
  else .refused (.romTooLarge rom.length)

/-- `hard_reset(rom)` (70_reset_and_hazards.md R291): as `create`. The parameters and the position of the oracle are no state
of the core and stay (log entry 29). -/
def hardReset (rom : List Byte) (s : State) : Answer := create s.cfg s.draws rom

/-- One count down, staying at 0 (60_exceptions.md R262). -/
def countDown (b : Byte) : Byte := if b = 0 then 0 else b - 1

/-- `tick()` (60_exceptions.md R262), on a faulted core as well. -/
def tick (s : State) : State := setSt (countDown s.st) (setDt (countDown s.dt) s)

/-- `set_keys(k)` (60_exceptions.md R264). -/
def setKeys (k : Vector Bool 16) (s : State) : State := setKey k s

/-- `snapshot()` (60_exceptions.md R266): element `y * 64 + x` is `fb[x][y]`. -/
def snapshot (s : State) : List Bool := s.fb.toList.flatMap Vector.toList

/-- The number of a fault (60_exceptions.md R250): a label of the spec's own (D32), which no rule reads. -/
def faultCode (kind : Fault) : Nat :=
  match kind with
  | .invalidAddress _ => 1
  | .unknownOpcode _ => 2
  | .stackOverflow => 3
  | .stackUnderflow => 4
  | .registerIndexInvariant => 5
  | .misalignedPc _ => 6
  | .operandOutOfRange _ => 7

/-- What the host may do to a running session (60_exceptions.md R270); `create` starts one. -/
inductive HostCall where
  | step
  | tick
  | setKeys (k : Vector Bool 16)
  | snapshot
  | hardReset (rom : List Byte)
deriving DecidableEq, Repr

/-- What the host gets back (60_exceptions.md R270). -/
inductive Reply where
  | done
  | stepped (r : StepResult)
  | cells (grid : List Bool)
  | refused (r : Refusal)
deriving DecidableEq, Repr

/-- One call of the host: the state after it and what it returns. -/
def hostCall (c : HostCall) (s : State) : State × Reply :=
  match c with
  | .step =>
    match step s with
    | .next t => (t, .stepped t.result)
    | .fault kind => (s, .stepped (.fault kind))
    | .refused r => (s, .refused r)
  | .tick => (tick s, .done)
  | .setKeys k => (setKeys k s, .done)
  | .snapshot => (s, .cells (snapshot s))
  | .hardReset rom =>
    match hardReset rom s with
    | .next t => (t, .done)
    | .fault kind => (s, .stepped (.fault kind))
    | .refused r => (s, .refused r)

/-- The state after a sequence of calls: any interleaving of steps and host events is such a sequence, since no event falls
inside a step (60_exceptions.md R272). -/
def runCalls (cs : List HostCall) (s : State) : State :=
  match cs with
  | [] => s
  | c :: rest => runCalls rest (hostCall c s).1

end Sys2Proof.Machine
end

