-- ==== Sys2Proof/Safety.lean ====
section
/-! DEFINITION. The terms claims are stated in: a safe run, the parts of the state a step leaves alone, the invariant of every
session, reachability, and what two states may differ in. -/

namespace Sys2Proof.Machine

/-- A core whose latch is clear: its session goes on (60_exceptions.md R251). -/
abbrev State.Live (s : State) : Prop := s.fault = none

/-- A live core whose next instruction is a jump to its own address: with a faulted core, the end of a run
(60_exceptions.md R259; D23). -/
def State.AtSelfJump (s : State) : Prop :=
  s.Live ∧ s.pc.toNat + 1 < 4096 ∧ (s.pc.toNat % 2 = 0 ∨ s.cfg.allowOddPc = true) ∧
  ∃ nnn : BitVec 12, nnn.toNat = s.pc.toNat ∧ decode [readByte s s.pc.toNat, readByte s (s.pc.toNat + 1)] = .ok (.jp nnn, [])

/-! ### What a step leaves alone -/

/-- Every general register but those of `p` keeps its value. -/
def KeepsRegsBut (p : Reg → Prop) (s t : State) : Prop := ∀ r : Reg, ¬ p r → getV t r = getV s r

/-- Every general register keeps its value. -/
def KeepsRegs (s t : State) : Prop := ∀ r : Reg, getV t r = getV s r

/-- Every byte of memory reads as before. -/
def KeepsMemory (s t : State) : Prop := ∀ a : Nat, readByte t a = readByte s a

/-- Every byte of memory outside the `count` bytes at `a` reads as before. -/
def KeepsMemoryBut (a count : Nat) (s t : State) : Prop :=
  ∀ b : Nat, (b < a ∨ a + count ≤ b) → readByte t b = readByte s b

/-- SP and every stack entry keep their values. -/
def KeepsStack (s t : State) : Prop := t.sp = s.sp ∧ t.stack = s.stack

/-- Both timers keep their values. -/
def KeepsTimers (s t : State) : Prop := t.dt = s.dt ∧ t.st = s.st

/-- Every cell of the framebuffer keeps its value. -/
def KeepsScreen (s t : State) : Prop := ∀ p : Pixel, getPixel t.fb p = getPixel s.fb p

/-- What no instruction writes (10_state.md R32, R35, R36): the keypad, the parameters, and, when it completes, the latch. -/
def KeepsOutside (s t : State) : Prop := t.key = s.key ∧ t.cfg = s.cfg ∧ t.fault = s.fault

/-- Everything but the general registers, I and PC: what a register-only instruction leaves alone. -/
def KeepsAllButRegs (s t : State) : Prop :=
  KeepsMemory s t ∧ KeepsStack s t ∧ KeepsTimers s t ∧ KeepsScreen s t ∧ KeepsOutside s t

/-- Everything but PC. -/
def KeepsAllButPc (s t : State) : Prop := KeepsRegs s t ∧ t.i = s.i ∧ KeepsAllButRegs s t

/-- The effect of raising a fault (30_encoding.md R95): the latch and what the call returns, and nothing else. -/
def Faults (a : Answer) (kind : Fault) (s : State) : Prop :=
  a = .next { s with fault := some (kind, s.pc), result := .fault kind }

/-- What address `b` reads as once `bytes` are stored from address `a` on (44_index_memory.md R192, R195). -/
def byteAfter (s : State) (a : Nat) (bytes : List Byte) (b : Nat) : Byte :=
  if h : a ≤ b ∧ b < a + bytes.length then bytes[b - a]'(by omega) else readByte s b

/-! ### The invariant of a session -/

/-- What a fault says of the state it was raised in (60_exceptions.md R250). -/
def FaultFits (kind : Fault) (s : State) : Prop :=
  match kind with
  | .invalidAddress a => Config.memSize ≤ a.toNat
  | .unknownOpcode w => decodeWord w = none
  | .stackOverflow => s.sp.val = Config.stackDepth
  | .stackUnderflow => s.sp.val = 0
  | .registerIndexInvariant => False
  | .misalignedPc q => q = s.pc ∧ s.pc.toNat % 2 = 1 ∧ s.cfg.allowOddPc = false
  | .operandOutOfRange w => s.cfg.highNibble = .fault ∧ ∃ x : Reg, w = encode (.skp x) ∨ w = encode (.sknp x) ∨ w = encode (.ldF x)

/-- What holds of every session: the memory is in canonical form, the parameters are sound, no PC above 0x10FE
(10_state.md R26), no return address above 0x1000 (30_encoding.md R90), and the latch holds the PC it was set at with a fault
that fits the state (10_state.md R35). -/
structure State.Inv (s : State) : Prop where
  memory : Memory.wf s.cfg s.mem = true
  params : s.cfg.wf = true
  pc     : s.pc.toNat ≤ 0x10FE
  stack  : ∀ j : Fin 16, s.stack[j.val].toNat ≤ 0x1000
  latch  : ∀ kind p, s.fault = some (kind, p) → p = s.pc ∧ s.result = .fault kind ∧ FaultFits kind s

/-- A state that some session reaches: from `create`, by calls of the host (60_exceptions.md R270, R272). -/
def Reachable (s : State) : Prop :=
  ∃ (c : Params) (draws : Nat) (rom : List Byte) (s0 : State) (cs : List HostCall),
    c.wf = true ∧ create c draws rom = .next s0 ∧ runCalls cs s0 = s

/-! ### Encodings -/

/-- Every word with this match and mask is the instruction built from its fields (the "Encoding" line of a rule). -/
def EncodedAs (pattern mask : Word) (build : Fields → Instr) : Prop :=
  ∀ w : Word, w &&& mask = pattern → decodeWord w = some (build (fieldsOf w))

/-! ### Sequences of instructions, and two states side by side -/

/-- The meanings of a list of instructions one after another, each taking the state the one before left. -/
def execAll (is : List Instr) (s : State) : Answer :=
  match is with
  | [] => .next s
  | i :: rest =>
    match exec i s with
    | .next t => execAll rest t
    | .fault k => .fault k
    | .refused r => .refused r

/-- A change of the next state. -/
def mapNext (f : State → State) (a : Answer) : Answer :=
  match a with
  | .next t => .next (f t)
  | .fault k => .fault k
  | .refused r => .refused r

/-- Two answers that end alike, with next states related by `r`. -/
def AnswersAgree (r : State → State → Prop) (a b : Answer) : Prop :=
  match a, b with
  | .next s, .next t => r s t
  | .fault k, .fault l => k = l
  | .refused k, .refused l => k = l
  | _, _ => False

/-- Two states that differ at most in dead stack entries (10_state.md R28). -/
def SameButDeadEntries (s t : State) : Prop :=
  setStack s.stack t = s ∧ ∀ j : Fin 16, j.val < s.sp.val → t.stack[j.val] = s.stack[j.val]

/-- The cells a sprite of `n` rows at I covers when drawn at (V[x], V[y]) (46_display.md R224): row `r` is the byte at I + r,
its bit 7 - c lies at column V[x] + c modulo 64 and row V[y] + r modulo 32. -/
def SpriteCovers (s : State) (x y : Reg) (n : Fin 16) (p : Pixel) : Prop :=
  ∃ r c : Nat, r < n.val ∧ c < 8 ∧ (readByte s (s.i.toNat + r)).getLsbD (7 - c) = true ∧
    p.1.val = ((getV s x).toNat + c) % 64 ∧ p.2.val = ((getV s y).toNat + r) % 32

end Sys2Proof.Machine
end

