-- ==== Sys2Proof/Certificates/Slice0/Obligations.lean ====
section
/-! DEFINITION. The statements for the provers. A statement whose docstring names a decision D<n> or a log entry rests there on
a choice of the spec's or the model's, not on the source's words. -/

open Sys2Proof Sys2Proof.Machine

/-! ### Encoding -/

/-- One word of each of the families 0 to F (30_encoding.md R76: the opcode nibble), written out from the encodings of R78, and
words the table leaves unknown. -/
def Obligations.WordsOfEachFamilyDecode : Prop :=
  decodeWord 0x00E0 = some .cls ∧ decodeWord 0x00EE = some .ret ∧ decodeWord 0x1ABC = some (.jp 0xABC) ∧
  decodeWord 0x2345 = some (.call 0x345) ∧ decodeWord 0x3A42 = some (.seImm 0xA 0x42) ∧
  decodeWord 0x4F07 = some (.sneImm 0xF 0x07) ∧ decodeWord 0x5120 = some (.seReg 1 2) ∧
  decodeWord 0x60AB = some (.ldImm 0 0xAB) ∧ decodeWord 0x7F05 = some (.addImm 0xF 0x05) ∧
  decodeWord 0x8AB4 = some (.addReg 0xA 0xB) ∧ decodeWord 0x9120 = some (.sneReg 1 2) ∧
  decodeWord 0xA123 = some (.ldI 0x123) ∧ decodeWord 0xB3FE = some (.jpV0 0x3FE) ∧ decodeWord 0xC7F0 = some (.rnd 7 0xF0) ∧
  decodeWord 0xD12F = some (.drw 1 2 0xF) ∧ decodeWord 0xE59E = some (.skp 5) ∧ decodeWord 0xF307 = some (.ldVxDt 3) ∧
  decodeWord 0xFE55 = some (.storeRegs 0xE) ∧ decodeWord 0x0000 = none ∧ decodeWord 0x5121 = none ∧
  decodeWord 0x8018 = none ∧ decodeWord 0xE09F = none ∧ decodeWord 0xF00A = none

/-- The operand tuple of a word is cut at the bit ranges of 30_encoding.md R71. -/
def Obligations.FieldsAreTheirBitRanges : Prop :=
  ∀ w : Word,
    (fieldsOf w).o.toNat = w.toNat / 2 ^ 12 ∧ (fieldsOf w).x.val = w.toNat / 2 ^ 8 % 16 ∧
    (fieldsOf w).y.val = w.toNat / 2 ^ 4 % 16 ∧ (fieldsOf w).n.val = w.toNat % 16 ∧
    (fieldsOf w).nn.toNat = w.toNat % 256 ∧ (fieldsOf w).nnn.toNat = w.toNat % 4096

/-- Decoding the bytes of any instruction, with any operands and whatever follows, gives it back and leaves the rest. -/
def Obligations.DecodeInvertsEncode : Prop :=
  ∀ (i : Instr) (rest : List Byte), decode (encodeBytes i ++ rest) = .ok (i, rest)

/-- Bytes that decode to an instruction are the bytes of that instruction: no bit of a word is dropped. -/
def Obligations.EncodeInvertsDecode : Prop :=
  ∀ (bytes rest : List Byte) (i : Instr), decode bytes = .ok (i, rest) → bytes = encodeBytes i ++ rest

/-- "A word matches at most one row" (30_encoding.md R78, marked derived there). -/
def Obligations.NoWordMatchesTwoRows : Prop :=
  opcodeTable.length = 33 ∧ opcodeTable.Pairwise fun r q => ∀ w : Word, ¬ (r.hits w = true ∧ q.hits w = true)

/-- The unknown words are exactly the six ranges of 30_encoding.md R79 (its counts are not part of this statement). -/
def Obligations.UnknownWordsAreTheListedRanges : Prop :=
  ∀ w : Word, decodeWord w = none ↔
    (w.toNat < 0x1000 ∧ w ≠ 0x00E0 ∧ w ≠ 0x00EE) ∨
    (w.toNat / 4096 = 0x5 ∧ w.toNat % 16 ≠ 0) ∨
    (w.toNat / 4096 = 0x8 ∧ w.toNat % 16 ∈ [8, 9, 0xA, 0xB, 0xC, 0xD, 0xF]) ∨
    (w.toNat / 4096 = 0x9 ∧ w.toNat % 16 ≠ 0) ∨
    (w.toNat / 4096 = 0xE ∧ w.toNat % 256 ∉ [0x9E, 0xA1]) ∨
    (w.toNat / 4096 = 0xF ∧ w.toNat % 256 ∉ [0x07, 0x15, 0x18, 0x1E, 0x29, 0x33, 0x55, 0x65])

/-! ### The step cycle -/

/-- On a live core whose PC can be fetched from, a step is the meaning of the instruction that the two bytes at PC and PC + 1
decode to, and nothing around it (30_encoding.md R90, R93; the fetch conditions R91, R92 rest on D3 and D4). -/
def Obligations.StepRunsTheDecodedInstruction : Prop :=
  ∀ (s : State) (i : Instr), s.Live → s.pc.toNat + 1 < 4096 → (s.pc.toNat % 2 = 0 ∨ s.cfg.allowOddPc = true) →
    decode [readByte s s.pc.toNat, readByte s (s.pc.toNat + 1)] = .ok (i, []) → step s = exec i s

/-- A word that matches no row raises `UnknownOpcode` with that word (30_encoding.md R79; the latch rests on D5). -/
def Obligations.StepFaultsOnUnknownWord : Prop :=
  ∀ (s : State) (w : Word), s.Live → s.pc.toNat + 1 < 4096 → (s.pc.toNat % 2 = 0 ∨ s.cfg.allowOddPc = true) →
    decode [readByte s s.pc.toNat, readByte s (s.pc.toNat + 1)] = .error (.unknownOpcode w) →
    Faults (step s) (.unknownOpcode w) s

/-- The fetch range check comes first and names PC, or 0x1000 when only PC + 1 fails (30_encoding.md R91;
time of the check D4; range before alignment D6). What the fault writes is R95, the spec's decision D5 (log entry 1). -/
def Obligations.FetchOutsideMemoryFaults : Prop :=
  ∀ s : State, s.Live →
    (4096 ≤ s.pc.toNat → Faults (step s) (.invalidAddress s.pc) s) ∧
    (s.pc.toNat = 4095 → Faults (step s) (.invalidAddress 0x1000) s)

/-- A fetch in range at an odd PC faults unless ALLOW_ODD_PC (30_encoding.md R92, the spec's decision D3). What the fault writes
is R95, the spec's decision D5 (log entry 1). -/
def Obligations.FetchAtOddPcFaults : Prop :=
  ∀ s : State, s.Live → s.pc.toNat < 4095 → s.pc.toNat % 2 = 1 → s.cfg.allowOddPc = false →
    Faults (step s) (.misalignedPc s.pc) s

/-- On a latched core a step returns the latched fault and changes nothing (30_encoding.md R98, the spec's decision D5). -/
def Obligations.LatchedCoreRepeatsItsFault : Prop :=
  ∀ (s : State) (kind : Fault) (p : Addr), s.fault = some (kind, p) →
    step s = .fault kind ∧ hostCall .step s = (s, .stepped (.fault kind))

/-- A step is all or nothing (30_encoding.md R95, D5): one that returns a fault leaves every field but the latch as it was, and
the latch then holds the fault with the PC of the step; one that returns `Ok` leaves the latch clear. -/
def Obligations.FaultingStepWritesOnlyTheLatch : Prop :=
  ∀ s t : State, s.Live → step s = .next t →
    (∀ kind, t.result = .fault kind → t = { s with fault := some (kind, s.pc), result := .fault kind }) ∧
    (∀ e, t.result = .ok e → t.Live)

/-- Each instruction raises at most its own kind of fault (60_exceptions.md R254, D6): StackOverflow only 2NNN with SP = 16,
StackUnderflow only 00EE with SP = 0, InvalidAddress only the four that access memory, OperandOutOfRange only EX9E, EXA1 and
FX29 under the policy `fault`. -/
def Obligations.InstructionsRaiseOnlyTheirOwnFault : Prop :=
  ∀ (i : Instr) (s t : State) (kind : Fault), exec i s = .next t → t.result = .fault kind →
    match kind with
    | .stackOverflow => (i matches .call _) = true ∧ s.sp.val = 16
    | .stackUnderflow => i = .ret ∧ s.sp.val = 0
    | .invalidAddress a => (i matches .drw .. | .ldB _ | .storeRegs _ | .loadRegs _) = true ∧
        a.toNat = max s.i.toNat 4096
    | .operandOutOfRange w => (i matches .skp _ | .sknp _ | .ldF _) = true ∧ w = encode i ∧ s.cfg.highNibble = .fault
    | .unknownOpcode _ | .registerIndexInvariant | .misalignedPc _ => False

/-- A live core always has a next state: it completes with a clear latch or it latches a fault, never
`RegisterIndexInvariant` (10_state.md R23; 30_encoding.md R95 and D5, log entry 1; 93_implementation_defined.md U18). -/
def Obligations.LiveCoreAlwaysSteps : Prop :=
  ∀ s : State, s.Live → ∃ t, step s = .next t ∧
    ((t.Live ∧ ∃ e, t.result = .ok e) ∨
     ∃ kind, t.fault = some (kind, s.pc) ∧ t.result = .fault kind ∧ kind ≠ .registerIndexInvariant)

/-! ### Control transfer -/

/-- 1NNN (41_control_flow.md R102; what the next fetch does with the address is not part of it). -/
def Obligations.JumpGoesToItsAddress : Prop :=
  ∀ (s : State) (nnn : BitVec 12), ∃ t, exec (.jp nnn) s = .next t ∧ t.pc.toNat = nnn.toNat ∧ KeepsAllButPc s t

/-- BNNN (41_control_flow.md R106): the register is always V0, the sum never wraps. -/
def Obligations.JumpWithOffsetAddsV0 : Prop :=
  ∀ (s : State) (nnn : BitVec 12), ∃ t, exec (.jpV0 nnn) s = .next t ∧
    t.pc.toNat = (getV s 0).toNat + nnn.toNat ∧ KeepsAllButPc s t

/-- 2NNN (41_control_flow.md R104; SP counts occupied entries by D2, the latch rests on D5): below 16 entries it pushes the
address of the next instruction and jumps; at 16 it raises StackOverflow. -/
def Obligations.CallPushesTheReturnAddress : Prop :=
  ∀ (s : State) (nnn : BitVec 12),
    (s.sp.val < 16 → ∃ t, exec (.call nnn) s = .next t ∧ t.pc.toNat = nnn.toNat ∧ t.sp.val = s.sp.val + 1 ∧
      (∀ j : Fin 16, t.stack[j.val] = if j.val = s.sp.val then s.pc + 2 else s.stack[j.val]) ∧
      KeepsRegs s t ∧ t.i = s.i ∧ KeepsMemory s t ∧ KeepsTimers s t ∧ KeepsScreen s t ∧ KeepsOutside s t) ∧
    (s.sp.val = 16 → Faults (exec (.call nnn) s) .stackOverflow s)

/-- 00EE (41_control_flow.md R100; the popped entry stays in place by D26, the latch rests on D5). -/
def Obligations.ReturnPopsTheReturnAddress : Prop :=
  ∀ s : State,
    (∀ j : Fin 16, s.sp.val = j.val + 1 → ∃ t, exec .ret s = .next t ∧ t.pc = s.stack[j.val] ∧ t.sp.val = j.val ∧
      t.stack = s.stack ∧
      KeepsRegs s t ∧ t.i = s.i ∧ KeepsMemory s t ∧ KeepsTimers s t ∧ KeepsScreen s t ∧ KeepsOutside s t) ∧
    (s.sp.val = 0 → Faults (exec .ret s) .stackUnderflow s)

/-- N nested calls followed by N returns bring PC to the successor of the first call and SP to its value, and leave the live
entries and everything else alone (41_control_flow.md R109, read with D2). -/
def Obligations.CallsThenReturnsRestorePc : Prop :=
  ∀ (targets : List (BitVec 12)) (s : State), targets ≠ [] → s.sp.val + targets.length ≤ 16 →
    ∃ t, execAll (targets.map Instr.call ++ List.replicate targets.length .ret) s = .next t ∧
      t.pc = s.pc + 2 ∧ t.sp = s.sp ∧ (∀ j : Fin 16, j.val < s.sp.val → t.stack[j.val] = s.stack[j.val]) ∧
      KeepsRegs s t ∧ t.i = s.i ∧ KeepsMemory s t ∧ KeepsTimers s t ∧ KeepsScreen s t ∧ KeepsOutside s t

/-- From an empty stack 16 nested calls succeed and the 17th faults (41_control_flow.md R109, D2). That the fault writes the latch
and nothing else is 30_encoding.md R95, the spec's decision D5 (log entry 1). -/
def Obligations.SeventeenthNestedCallOverflows : Prop :=
  ∀ (targets : List (BitVec 12)) (nnn : BitVec 12) (s : State), targets.length = 16 → s.sp.val = 0 →
    ∃ t, execAll (targets.map Instr.call) s = .next t ∧ t.sp.val = 16 ∧ t.fault = s.fault ∧
      Faults (exec (.call nnn) t) .stackOverflow t

/-! ### Skips -/

/-- 3XNN and 4XNN: encoding, target and frame (42_skip.md R120, R122). -/
def Obligations.ImmediateSkipsCompare : Prop :=
  EncodedAs 0x3000 0xF000 (fun f => .seImm f.x f.nn) ∧ EncodedAs 0x4000 0xF000 (fun f => .sneImm f.x f.nn) ∧
  ∀ (s : State) (x : Reg) (nn : Byte),
    (∃ t, exec (.seImm x nn) s = .next t ∧ t.pc = (if getV s x = nn then s.pc + 4 else s.pc + 2) ∧ KeepsAllButPc s t) ∧
    (∃ t, exec (.sneImm x nn) s = .next t ∧ t.pc = (if getV s x = nn then s.pc + 2 else s.pc + 4) ∧ KeepsAllButPc s t)

/-- 5XY0 and 9XY0 (42_skip.md R124, R126). -/
def Obligations.RegisterSkipsCompare : Prop :=
  ∀ (s : State) (x y : Reg),
    (∃ t, exec (.seReg x y) s = .next t ∧ t.pc = (if getV s x = getV s y then s.pc + 4 else s.pc + 2) ∧ KeepsAllButPc s t) ∧
    (∃ t, exec (.sneReg x y) s = .next t ∧ t.pc = (if getV s x = getV s y then s.pc + 2 else s.pc + 4) ∧ KeepsAllButPc s t)

/-- EX9E and EXA1 (42_skip.md R128, R130): the key is V[X], or its low nibble above 0xF under the policy `mask` (R132, D11). -/
def Obligations.KeySkipsTestTheKeypad : Prop :=
  ∀ (s : State) (x : Reg) (k : Fin 16), k.val = (getV s x).toNat % 16 →
    ((getV s x).toNat ≤ 15 ∨ s.cfg.highNibble = .mask) →
    (∃ t, exec (.skp x) s = .next t ∧ t.pc = (if s.key[k.val] = true then s.pc + 4 else s.pc + 2) ∧ KeepsAllButPc s t) ∧
    (∃ t, exec (.sknp x) s = .next t ∧ t.pc = (if s.key[k.val] = true then s.pc + 2 else s.pc + 4) ∧ KeepsAllButPc s t)

/-- Under the policy `fault` an operand above 0xF raises `OperandOutOfRange` with the instruction's word in EX9E, EXA1 and
FX29 (42_skip.md R132, 44_index_memory.md R189; the spec's decision D11; log entry 26). What the fault writes is
30_encoding.md R95, the spec's decision D5 (log entry 1). -/
def Obligations.HighOperandFaultsUnderFaultPolicy : Prop :=
  ∀ (s : State) (x : Reg), 15 < (getV s x).toNat → s.cfg.highNibble = .fault →
    Faults (exec (.skp x) s) (.operandOutOfRange (encode (.skp x))) s ∧
    Faults (exec (.sknp x) s) (.operandOutOfRange (encode (.sknp x))) s ∧
    Faults (exec (.ldF x) s) (.operandOutOfRange (encode (.ldF x))) s

/-! ### Loads and arithmetic -/

/-- 6XNN and 8XY0: encoding, result and frame (43_alu.md R140, R144). -/
def Obligations.LoadsWriteTheirRegister : Prop :=
  EncodedAs 0x6000 0xF000 (fun f => .ldImm f.x f.nn) ∧ EncodedAs 0x8000 0xF00F (fun f => .ldReg f.x f.y) ∧
  ∀ (s : State) (x y : Reg) (nn : Byte),
    (∃ t, exec (.ldImm x nn) s = .next t ∧ getV t x = nn ∧ t.pc = s.pc + 2 ∧
      KeepsRegsBut (· = x) s t ∧ t.i = s.i ∧ KeepsAllButRegs s t) ∧
    (∃ t, exec (.ldReg x y) s = .next t ∧ getV t x = getV s y ∧ t.pc = s.pc + 2 ∧
      KeepsRegsBut (· = x) s t ∧ t.i = s.i ∧ KeepsAllButRegs s t)

/-- 7XNN (43_alu.md R142): modulo 256, and VF is written only as the destination. -/
def Obligations.AddImmediateWrapsWithoutFlag : Prop :=
  EncodedAs 0x7000 0xF000 (fun f => .addImm f.x f.nn) ∧
  ∀ (s : State) (x : Reg) (nn : Byte), ∃ t, exec (.addImm x nn) s = .next t ∧
    (getV t x).toNat = ((getV s x).toNat + nn.toNat) % 256 ∧ t.pc = s.pc + 2 ∧
    KeepsRegsBut (· = x) s t ∧ t.i = s.i ∧ KeepsAllButRegs s t

/-- 8XY1, 8XY2, 8XY3 (43_alu.md R146, R148, R150), bit by bit; VF unchanged unless it is the destination (D15). -/
def Obligations.LogicWorksBitByBit : Prop :=
  ∀ (s : State) (x y : Reg),
    (∃ t, exec (.orReg x y) s = .next t ∧
      (∀ j, j < 8 → (getV t x).getLsbD j = ((getV s x).getLsbD j || (getV s y).getLsbD j)) ∧ t.pc = s.pc + 2 ∧
      KeepsRegsBut (· = x) s t ∧ t.i = s.i ∧ KeepsAllButRegs s t) ∧
    (∃ t, exec (.andReg x y) s = .next t ∧
      (∀ j, j < 8 → (getV t x).getLsbD j = ((getV s x).getLsbD j && (getV s y).getLsbD j)) ∧ t.pc = s.pc + 2 ∧
      KeepsRegsBut (· = x) s t ∧ t.i = s.i ∧ KeepsAllButRegs s t) ∧
    (∃ t, exec (.xorReg x y) s = .next t ∧
      (∀ j, j < 8 → (getV t x).getLsbD j = ((getV s x).getLsbD j ^^ (getV s y).getLsbD j)) ∧ t.pc = s.pc + 2 ∧
      KeepsRegsBut (· = x) s t ∧ t.i = s.i ∧ KeepsAllButRegs s t)

/-- 8XY4 (43_alu.md R152): the sum modulo 256 and the carry, both of the old operands; with X = F the carry stays (R159, the
spec's decision D14). -/
def Obligations.AddSetsCarry : Prop :=
  ∀ (s : State) (x y : Reg), ∃ t, exec (.addReg x y) s = .next t ∧
    (x ≠ 15 → (getV t x).toNat = ((getV s x).toNat + (getV s y).toNat) % 256) ∧
    getV t 15 = (if 256 ≤ (getV s x).toNat + (getV s y).toNat then 1 else 0) ∧ t.pc = s.pc + 2 ∧
    KeepsRegsBut (fun r => r = x ∨ r = 15) s t ∧ t.i = s.i ∧ KeepsAllButRegs s t

/-- 8XY5 and 8XY7 (43_alu.md R154, R157): the difference modulo 256 and the not-borrow, both of the old operands; with X = F
the not-borrow stays (R159, the spec's decision D14). -/
def Obligations.SubtractionsSetNotBorrow : Prop :=
  ∀ (s : State) (x y : Reg),
    (∃ t, exec (.subReg x y) s = .next t ∧
      (x ≠ 15 → (getV t x).toNat = ((getV s x).toNat + 256 - (getV s y).toNat) % 256) ∧
      getV t 15 = (if (getV s y).toNat ≤ (getV s x).toNat then 1 else 0) ∧ t.pc = s.pc + 2 ∧
      KeepsRegsBut (fun r => r = x ∨ r = 15) s t ∧ t.i = s.i ∧ KeepsAllButRegs s t) ∧
    (∃ t, exec (.subnReg x y) s = .next t ∧
      (x ≠ 15 → (getV t x).toNat = ((getV s y).toNat + 256 - (getV s x).toNat) % 256) ∧
      getV t 15 = (if (getV s x).toNat ≤ (getV s y).toNat then 1 else 0) ∧ t.pc = s.pc + 2 ∧
      KeepsRegsBut (fun r => r = x ∨ r = 15) s t ∧ t.i = s.i ∧ KeepsAllButRegs s t)

/-- 8XY6 and 8XYE (43_alu.md R156, R158): V[X] shifted by one, VF the bit moved out; with X = F the shifted value stays (R159,
the spec's decision D14). -/
def Obligations.ShiftsSetTheBitMovedOut : Prop :=
  ∀ (s : State) (x y : Reg),
    (∃ t, exec (.shr x y) s = .next t ∧ (getV t x).toNat = (getV s x).toNat / 2 ∧
      (x ≠ 15 → (getV t 15).toNat = (getV s x).toNat % 2) ∧ t.pc = s.pc + 2 ∧
      KeepsRegsBut (fun r => r = x ∨ r = 15) s t ∧ t.i = s.i ∧ KeepsAllButRegs s t) ∧
    (∃ t, exec (.shl x y) s = .next t ∧ (getV t x).toNat = 2 * (getV s x).toNat % 256 ∧
      (x ≠ 15 → (getV t 15).toNat = (getV s x).toNat / 128) ∧ t.pc = s.pc + 2 ∧
      KeepsRegsBut (fun r => r = x ∨ r = 15) s t ∧ t.i = s.i ∧ KeepsAllButRegs s t)

/-- V[Y] is not read by the shifts: any Y, and any value in another register V[Y], gives the same V[X] and VF
(30_encoding.md R75). -/
def Obligations.ShiftsDoNotReadY : Prop :=
  ∀ (s : State) (x y z : Reg) (b : Byte),
    exec (.shr x y) s = exec (.shr x z) s ∧ exec (.shl x y) s = exec (.shl x z) s ∧
    (y ≠ x → ∃ t u, exec (.shr x y) s = .next t ∧ exec (.shr x y) (setV y b s) = .next u ∧
      getV u x = getV t x ∧ getV u 15 = getV t 15) ∧
    (y ≠ x → ∃ t u, exec (.shl x y) s = .next t ∧ exec (.shl x y) (setV y b s) = .next u ∧
      getV u x = getV t x ∧ getV u 15 = getV t 15)

/-- CXNN (43_alu.md R160): some byte of the oracle (60_exceptions.md R268, D22; a free value, log entry 4), and with NN; one
draw; NN = 0 gives 0 whatever the draw. -/
def Obligations.RandomByteIsMasked : Prop :=
  ∀ (s : State) (x : Reg) (nn : Byte), ∃ t, exec (.rnd x nn) s = .next t ∧
    getV t x = Config.rand s.draws &&& nn ∧ t.draws = s.draws + 1 ∧ (nn = 0 → getV t x = 0) ∧ t.pc = s.pc + 2 ∧
    KeepsRegsBut (· = x) s t ∧ t.i = s.i ∧ KeepsAllButRegs s t

/-! ### Index register and memory -/

/-- ANNN: encoding, result and frame (44_index_memory.md R180). -/
def Obligations.LoadIndexZeroExtends : Prop :=
  EncodedAs 0xA000 0xF000 (fun f => .ldI f.nnn) ∧
  ∀ (s : State) (nnn : BitVec 12), ∃ t, exec (.ldI nnn) s = .next t ∧ t.i.toNat = nnn.toNat ∧ t.pc = s.pc + 2 ∧
    KeepsRegs s t ∧ KeepsAllButRegs s t

/-- FX1E (44_index_memory.md R182): modulo 65536 and no flag (the spec's decision D8). -/
def Obligations.AddToIndexWraps : Prop :=
  ∀ (s : State) (x : Reg), ∃ t, exec (.addI x) s = .next t ∧
    t.i.toNat = (s.i.toNat + (getV s x).toNat) % 65536 ∧ t.pc = s.pc + 2 ∧ KeepsRegs s t ∧ KeepsAllButRegs s t

/-- FX29 (44_index_memory.md R189): the address of the glyph of the digit V[X], or of its low nibble under the policy `mask`
(D11); the font lies at FONT_BASE (D10). -/
def Obligations.GlyphAddressIsInTheFont : Prop :=
  ∀ (s : State) (x : Reg), s.cfg.wf = true → ((getV s x).toNat ≤ 15 ∨ s.cfg.highNibble = .mask) →
    ∃ t, exec (.ldF x) s = .next t ∧ t.i.toNat = s.cfg.fontBase.toNat + 5 * ((getV s x).toNat % 16) ∧
      t.pc = s.pc + 2 ∧ KeepsRegs s t ∧ KeepsAllButRegs s t

/-- FX33 (44_index_memory.md R192): hundreds at I, tens at I + 1, ones at I + 2 (D31), every other byte as before. -/
def Obligations.DecimalDigitsAreStored : Prop :=
  ∀ (s : State) (x : Reg), s.i.toNat + 3 ≤ 4096 → ∃ t, exec (.ldB x) s = .next t ∧
    (readByte t s.i.toNat).toNat = (getV s x).toNat / 100 ∧
    (readByte t (s.i.toNat + 1)).toNat = (getV s x).toNat / 10 % 10 ∧
    (readByte t (s.i.toNat + 2)).toNat = (getV s x).toNat % 10 ∧
    KeepsMemoryBut s.i.toNat 3 s t ∧ t.pc = s.pc + 2 ∧
    KeepsRegs s t ∧ t.i = s.i ∧ KeepsStack s t ∧ KeepsTimers s t ∧ KeepsScreen s t ∧ KeepsOutside s t

/-- FX55 (44_index_memory.md R195): V0..VX at I..I+X, every other byte as before; I is unchanged (D9). -/
def Obligations.RegistersAreStored : Prop :=
  ∀ (s : State) (x : Reg), s.i.toNat + x.val + 1 ≤ 4096 → ∃ t, exec (.storeRegs x) s = .next t ∧
    (∀ k : Reg, k.val ≤ x.val → readByte t (s.i.toNat + k.val) = getV s k) ∧
    KeepsMemoryBut s.i.toNat (x.val + 1) s t ∧ t.pc = s.pc + 2 ∧
    KeepsRegs s t ∧ t.i = s.i ∧ KeepsStack s t ∧ KeepsTimers s t ∧ KeepsScreen s t ∧ KeepsOutside s t

/-- FX65 (44_index_memory.md R198): V0..VX from I..I+X, the registers above as before; I is unchanged (D9). -/
def Obligations.RegistersAreLoaded : Prop :=
  ∀ (s : State) (x : Reg), s.i.toNat + x.val + 1 ≤ 4096 → ∃ t, exec (.loadRegs x) s = .next t ∧
    (∀ k : Reg, k.val ≤ x.val → getV t k = readByte s (s.i.toNat + k.val)) ∧
    KeepsRegsBut (fun r => r.val ≤ x.val) s t ∧ t.pc = s.pc + 2 ∧ t.i = s.i ∧ KeepsAllButRegs s t

/-- The range check of FX33, FX55, FX65 and DXYN (44_index_memory.md R184, the spec's decision D7): an access that would reach
4096 or more faults with the lowest failing address before anything is read or written. That the fault writes the latch and
nothing else is 30_encoding.md R95, the spec's decision D5 (log entry 1). -/
def Obligations.AccessBeyondMemoryFaults : Prop :=
  ∀ (s : State) (x y : Reg) (n : Fin 16) (a : Addr), a.toNat = max s.i.toNat 4096 →
    (4096 < s.i.toNat + 3 → Faults (exec (.ldB x) s) (.invalidAddress a) s) ∧
    (4096 < s.i.toNat + x.val + 1 → Faults (exec (.storeRegs x) s) (.invalidAddress a) s) ∧
    (4096 < s.i.toNat + x.val + 1 → Faults (exec (.loadRegs x) s) (.invalidAddress a) s) ∧
    (0 < n.val → 4096 < s.i.toNat + n.val → Faults (exec (.drw x y n) s) (.invalidAddress a) s)

/-- Whatever FX55 or FX33 stores at PC + 2 and PC + 3, one byte, both or none, is what the next step fetches: it runs the
instruction those bytes decode to, or raises `UnknownOpcode` (20_memory.md R62 and 70_reset_and_hazards.md R301, the spec's
decision D20; the fetch conditions rest on D3 and D4, what the fault writes on D5). -/
def Obligations.StoredCodeIsFetchedNext : Prop :=
  ∀ (s : State) (x : Reg) (st : Instr) (bytes : List Byte), s.Live → s.pc.toNat + 4 ≤ 4096 →
    (s.pc.toNat % 2 = 0 ∨ s.cfg.allowOddPc = true) →
    (st = .storeRegs x ∧ bytes = firstRegs s x ∨ st = .ldB x ∧ bytes = decimalDigits (getV s x)) →
    decode [readByte s s.pc.toNat, readByte s (s.pc.toNat + 1)] = .ok (st, []) →
    s.i.toNat + bytes.length ≤ 4096 →
    ∃ t, step s = .next t ∧
      (∀ i, decode [byteAfter s s.i.toNat bytes (s.pc.toNat + 2), byteAfter s s.i.toNat bytes (s.pc.toNat + 3)] = .ok (i, []) →
        step t = exec i t) ∧
      (∀ w, decode [byteAfter s s.i.toNat bytes (s.pc.toNat + 2), byteAfter s s.i.toNat bytes (s.pc.toNat + 3)] =
          .error (.unknownOpcode w) → Faults (step t) (.unknownOpcode w) t)

/-- Memories in canonical form that read alike at every address are the same data (the model's form, log entry 6). -/
def Obligations.CanonicalMemoriesThatReadAlikeAreEqual : Prop :=
  ∀ (c : Params) (m m' : Memory), Memory.wf c m = true → Memory.wf c m' = true →
    (∀ a, a < 4096 → Memory.read c m a = Memory.read c m' a) → m = m'

/-! ### Timers -/

/-- FX07, FX15 and FX18: encoding, result and frame (45_timers.md R210, R212, R214). -/
def Obligations.TimersMoveWhole : Prop :=
  EncodedAs 0xF007 0xF0FF (fun f => .ldVxDt f.x) ∧ EncodedAs 0xF015 0xF0FF (fun f => .ldDtVx f.x) ∧
  EncodedAs 0xF018 0xF0FF (fun f => .ldStVx f.x) ∧
  ∀ (s : State) (x : Reg),
    (∃ t, exec (.ldVxDt x) s = .next t ∧ getV t x = s.dt ∧ t.pc = s.pc + 2 ∧
      KeepsRegsBut (· = x) s t ∧ t.i = s.i ∧ KeepsAllButRegs s t) ∧
    (∃ t, exec (.ldDtVx x) s = .next t ∧ t.dt = getV s x ∧ t.pc = s.pc + 2 ∧ t.st = s.st ∧
      KeepsRegs s t ∧ t.i = s.i ∧ KeepsMemory s t ∧ KeepsStack s t ∧ KeepsScreen s t ∧ KeepsOutside s t) ∧
    (∃ t, exec (.ldStVx x) s = .next t ∧ t.st = getV s x ∧ t.pc = s.pc + 2 ∧ t.dt = s.dt ∧
      KeepsRegs s t ∧ t.i = s.i ∧ KeepsMemory s t ∧ KeepsStack s t ∧ KeepsScreen s t ∧ KeepsOutside s t)

/-- A tick takes one from each timer above 0 and changes nothing else, on a faulted core as well (60_exceptions.md R262, the
spec's decision D16); so n ticks leave a timer at its value less n, or 0. -/
def Obligations.TicksCountTimersDown : Prop :=
  ∀ (n : Nat) (s : State),
    (runCalls (List.replicate n .tick) s).dt.toNat = s.dt.toNat - n ∧
    (runCalls (List.replicate n .tick) s).st.toNat = s.st.toNat - n ∧
    { runCalls (List.replicate n .tick) s with dt := s.dt, st := s.st } = s

/-! ### Display -/

/-- 00E0 (46_display.md R220): every cell off; the report names the cells that were on, each once (D21). -/
def Obligations.ClearTurnsEveryCellOff : Prop :=
  ∀ s : State, ∃ t cells, exec .cls s = .next t ∧ (∀ p, getPixel t.fb p = false) ∧
    t.result = .ok (.toggled cells false) ∧ cells.Nodup ∧ (∀ p, p ∈ cells ↔ getPixel s.fb p = true) ∧
    t.pc = s.pc + 2 ∧
    KeepsRegs s t ∧ t.i = s.i ∧ KeepsMemory s t ∧ KeepsStack s t ∧ KeepsTimers s t ∧ KeepsOutside s t

/-- DXYN (46_display.md R224): exactly the cells the sprite covers change; VF says whether one of them was on; the report names
them, each once. It rests on D12 (bit order), D13 (N = 0), D21 (report) and on 90_conflicts.md C4 (wrapping). -/
def Obligations.DrawTogglesTheCoveredCells : Prop :=
  ∀ (s : State) (x y : Reg) (n : Fin 16), (n.val = 0 ∨ s.i.toNat + n.val ≤ 4096) →
    ∃ t cells col, exec (.drw x y n) s = .next t ∧
      (∀ p, SpriteCovers s x y n p → getPixel t.fb p = !getPixel s.fb p) ∧
      (∀ p, ¬ SpriteCovers s x y n p → getPixel t.fb p = getPixel s.fb p) ∧
      (col = true ↔ ∃ p, SpriteCovers s x y n p ∧ getPixel s.fb p = true) ∧
      getV t 15 = (if col = true then 1 else 0) ∧
      t.result = .ok (.toggled cells col) ∧ cells.Nodup ∧ (∀ p, p ∈ cells ↔ SpriteCovers s x y n p) ∧
      t.pc = s.pc + 2 ∧ KeepsRegsBut (· = 15) s t ∧ t.i = s.i ∧
      KeepsMemory s t ∧ KeepsStack s t ∧ KeepsTimers s t ∧ KeepsOutside s t

/-- The toggle is its own inverse, its two flags differ, and coordinates wrap (46_display.md R228, marked derived there). -/
def Obligations.ToggleIsItsOwnInverse : Prop :=
  ∀ (x y : Nat) (f : Framebuffer),
    (toggle (x, y) (toggle (x, y) f).1).1 = f ∧
    (toggle (x, y) (toggle (x, y) f).1).2 = !(toggle (x, y) f).2 ∧
    toggle (64 + x, 32 + y) f = toggle (x, y) f

/-- What a completed instruction reports is what it did to the framebuffer (30_encoding.md R96, D21; 10_state.md R34): the cells
reported are exactly those whose value changed, each once, and an instruction that reports none changed none; only 00E0 and DXYN
report cells. -/
def Obligations.ReportNamesTheChangedCells : Prop :=
  ∀ (i : Instr) (s t : State), exec i s = .next t →
    (∀ cells col, t.result = .ok (.toggled cells col) →
      (i = .cls ∨ (i matches .drw ..) = true) ∧ cells.Nodup ∧ ∀ p, p ∈ cells ↔ getPixel t.fb p ≠ getPixel s.fb p) ∧
    (t.result = .ok .none → i ≠ .cls ∧ (i matches .drw ..) = false ∧ t.fb = s.fb)

/-! ### Whole-machine rules -/

/-- Who writes what, over every instruction: I (10_state.md R24), SP and the stack (R27, R28), the timers (R29, R30), the
framebuffer (R34), memory (20_memory.md R66); no instruction writes the keypad (R32) or the parameters (R36), and only CXNN draws. -/
def Obligations.OnlyTheNamedInstructionsWrite : Prop :=
  ∀ (i : Instr) (s t : State), exec i s = .next t →
    (t.i ≠ s.i → (i matches .ldI _ | .addI _ | .ldF _) = true) ∧
    (t.sp ≠ s.sp → (i matches .call _ | .ret) = true) ∧
    (t.stack ≠ s.stack → (i matches .call _) = true) ∧
    (t.dt ≠ s.dt → (i matches .ldDtVx _) = true) ∧
    (t.st ≠ s.st → (i matches .ldStVx _) = true) ∧
    (t.fb ≠ s.fb → (i matches .cls | .drw ..) = true) ∧
    ((∃ a, readByte t a ≠ readByte s a) → (i matches .ldB _ | .storeRegs _) = true) ∧
    (t.draws ≠ s.draws → (i matches .rnd ..) = true) ∧
    t.key = s.key ∧ t.cfg = s.cfg

/-- "no instruction reads it" (10_state.md R30): a change of ST before an instruction is the same change after it, but for
FX18, which overwrites ST. -/
def Obligations.NoInstructionReadsSt : Prop :=
  ∀ (i : Instr) (s : State) (b : Byte), (i matches .ldStVx _) = false →
    exec i (setSt b s) = mapNext (setSt b) (exec i s)

/-- "no rule can observe a dead entry" (10_state.md R28, D26): states that differ in dead stack entries only step to states that
do, and end alike. -/
def Obligations.DeadStackEntriesAreNeverSeen : Prop :=
  ∀ s t : State, SameButDeadEntries s t → AnswersAgree SameButDeadEntries (step s) (step t)

/-- Every step keeps the invariant of a session: canonical memory, sound parameters, PC at most 0x10FE (10_state.md R26), return
addresses at most 0x1000 (30_encoding.md R90), and a latch that fits (R35). The form of memory is the model's (log entry 6). -/
def Obligations.StepKeepsTheInvariant : Prop :=
  ∀ s t : State, s.Inv → step s = .next t → t.Inv

/-- The reset state meets the invariant. -/
def Obligations.ResetMeetsTheInvariant : Prop := State.reset.Inv

/-- Every call of the host keeps the invariant (60_exceptions.md R270). -/
def Obligations.HostCallsKeepTheInvariant : Prop :=
  ∀ (c : HostCall) (s : State), s.Inv → (hostCall c s).1.Inv

/-- Every state of every session, under every interleaving of steps, ticks, key writes, snapshots and hard resets, meets the
invariant; in particular no PC is ever above 0x10FE (10_state.md R26; 60_exceptions.md R272). That the host does nothing else is
the spec's decision D30 (log entry 24). -/
def Obligations.ReachableStatesMeetTheInvariant : Prop := ∀ s : State, Reachable s → s.Inv

/-! ### Reset and the host -/

/-- What reset leaves (10_state.md R38): PC at 0x200 and memory zero but for a font region as the source says; the place of that
region is the spec's decision D10 (log entry 6), everything else is zero, false, empty or none by D17, and what an address of
4096 or more reads as is the model's choice (log entry 27). -/
def Obligations.ResetValues : Prop :=
  let s := State.reset
  s.pc = 0x200 ∧ (∀ r : Reg, getV s r = 0) ∧ s.i = 0 ∧ s.sp.val = 0 ∧ (∀ j : Fin 16, s.stack[j.val] = 0) ∧ s.dt = 0 ∧ s.st = 0 ∧
  (∀ k : Fin 16, s.key[k.val] = false) ∧ (∀ p, getPixel s.fb p = false) ∧ s.fault = none ∧
  (∀ a, a < 0x50 ∨ 0xA0 ≤ a → readByte s a = 0) ∧
  (∀ k : Fin 80, readByte s (0x50 + k.val) = s.cfg.fontData[k.val])

/-- `create` on a ROM that fits (70_reset_and_hazards.md R290, R292; 20_memory.md R55): the ROM bytes from 0x200, the font in its
region, zero elsewhere, and everything else as at reset. -/
def Obligations.CreatePlacesTheRom : Prop :=
  ∀ (c : Params) (d : Nat) (rom : List Byte), c.wf = true → rom.length ≤ 3584 →
    ∃ s, create c d rom = .next s ∧
      (∀ (k : Nat) (h : k < rom.length), readByte s (0x200 + k) = rom[k]) ∧
      (∀ k : Fin 80, readByte s (c.fontBase.toNat + k.val) = c.fontData[k.val]) ∧
      (∀ a, a < 4096 → ¬ (0x200 ≤ a ∧ a < 0x200 + rom.length) → ¬ (c.fontBase.toNat ≤ a ∧ a < c.fontBase.toNat + 80) →
        readByte s a = 0) ∧
      s = { State.reset with cfg := c, draws := d, mem := s.mem }

/-- A hard reset has exactly the effect of `create` (70_reset_and_hazards.md R291, D17 for the framebuffer and the latch): with a
ROM that fits, the ROM is at 0x200, the font in its region, memory zero elsewhere, every other field at its reset value, and
nothing of the old state is left, so the next step fetches at 0x200 (R293). That the parameters and the oracle's position stay is
the model's choice (log entry 29). -/
def Obligations.HardResetForgetsTheOldState : Prop :=
  ∀ (s : State) (rom : List Byte), hardReset rom s = create s.cfg s.draws rom ∧
    (rom.length ≤ 3584 → ∃ t, hardReset rom s = .next t ∧ t.Live ∧ t.pc = 0x200 ∧
      (∀ (k : Nat) (h : k < rom.length), readByte t (0x200 + k) = rom[k]) ∧
      (s.cfg.wf = true →
        (∀ k : Fin 80, readByte t (s.cfg.fontBase.toNat + k.val) = s.cfg.fontData[k.val]) ∧
        (∀ a, a < 4096 → ¬ (0x200 ≤ a ∧ a < 0x200 + rom.length) →
          ¬ (s.cfg.fontBase.toNat ≤ a ∧ a < s.cfg.fontBase.toNat + 80) → readByte t a = 0)) ∧
      t = { State.reset with cfg := s.cfg, draws := s.draws, mem := t.mem } ∧
      (∀ u : State, u.cfg = s.cfg → u.draws = s.draws → hardReset rom u = .next t) ∧
      (hostCall (.hardReset rom) s).1 = t)

/-- A ROM of more than 3584 bytes is refused by `create` and by `hard_reset`, and the latter changes no state
(70_reset_and_hazards.md R292, the spec's decision D18). -/
def Obligations.OversizedRomIsRefused : Prop :=
  ∀ (c : Params) (d : Nat) (rom : List Byte) (s : State), 3584 < rom.length →
    create c d rom = .refused (.romTooLarge rom.length) ∧
    hostCall (.hardReset rom) s = (s, .refused (.romTooLarge rom.length))

/-- `set_keys` replaces the keypad and nothing else (60_exceptions.md R264); `snapshot` returns the 2048 cells in row-major
order, element `y * 64 + x` being `fb[x][y]`, and changes no state (R266). -/
def Obligations.KeysAndSnapshotOfTheHost : Prop :=
  ∀ (s : State) (k : Vector Bool 16),
    hostCall (.setKeys k) s = ({ s with key := k }, .done) ∧
    ∃ grid, hostCall .snapshot s = (s, .cells grid) ∧ grid.length = 2048 ∧
      ∀ p : Pixel, grid[p.2.val * 64 + p.1.val]? = some (getPixel s.fb p)

/-- A jump to its own address is run at every later step and changes nothing (60_exceptions.md R259; the end of a run by the
spec's decision D23); only what the call returns is written. -/
def Obligations.SelfJumpStaysPut : Prop :=
  ∀ (n : Nat) (s : State), s.AtSelfJump →
    { runCalls (List.replicate n .step) s with result := s.result } = s ∧
    (0 < n → (runCalls (List.replicate n .step) s).result = .ok .none)
end

