-- ==== Sys2Proof/Laws/Decode.lean ====
section
/-! SUPPORT. The decoder and the encoder: the fields of a word and the words of the formats as numbers, what a mask keeps of a
word, and the bytes. -/

namespace Sys2Proof

/-! ### Words as numbers -/

theorem append_toNat {m n : Nat} (a : BitVec m) (b : BitVec n) : (a ++ b).toNat = a.toNat * 2 ^ n + b.toNat := by
  rw [BitVec.toNat_append, ← Nat.shiftLeft_add_eq_or_of_lt b.isLt, Nat.shiftLeft_eq]

@[simp] theorem nibble_toNat (x : Fin 16) : (nibble x).toNat = x.val := by
  have := x.isLt
  simp only [nibble, BitVec.toNat_ofNat]
  omega

theorem wordA_toNat (o : BitVec 4) (nnn : BitVec 12) : (wordA o nnn).toNat = o.toNat * 4096 + nnn.toNat :=
  append_toNat o nnn

theorem wordXNN_toNat (o : BitVec 4) (x : Reg) (nn : Byte) :
    (wordXNN o x nn).toNat = o.toNat * 4096 + x.val * 256 + nn.toNat := by
  rw [wordXNN, append_toNat, append_toNat, nibble_toNat]
  omega

theorem wordXYN_toNat (o : BitVec 4) (x y : Reg) (d : BitVec 4) :
    (wordXYN o x y d).toNat = o.toNat * 4096 + x.val * 256 + y.val * 16 + d.toNat := by
  rw [wordXYN, append_toNat, append_toNat, append_toNat, nibble_toNat, nibble_toNat]
  omega

theorem wordOfBytes_toNat (hi lo : Byte) : (wordOfBytes hi lo).toNat = hi.toNat * 256 + lo.toNat :=
  append_toNat hi lo

/-! ### The fields of a word (30_encoding.md R71) -/

theorem fieldsOf_o (w : Word) : (fieldsOf w).o.toNat = w.toNat / 4096 := by
  have := w.isLt
  simp only [fieldsOf, BitVec.extractLsb'_toNat, Nat.shiftRight_eq_div_pow]
  omega

theorem fieldsOf_x (w : Word) : (fieldsOf w).x.val = w.toNat / 256 % 16 := by
  simp only [fieldsOf, BitVec.val_toFin, BitVec.extractLsb'_toNat, Nat.shiftRight_eq_div_pow]

theorem fieldsOf_y (w : Word) : (fieldsOf w).y.val = w.toNat / 16 % 16 := by
  simp only [fieldsOf, BitVec.val_toFin, BitVec.extractLsb'_toNat, Nat.shiftRight_eq_div_pow]

theorem fieldsOf_n (w : Word) : (fieldsOf w).n.val = w.toNat % 16 := by
  simp only [fieldsOf, BitVec.val_toFin, BitVec.extractLsb'_toNat, Nat.shiftRight_eq_div_pow]
  omega

theorem fieldsOf_nn (w : Word) : (fieldsOf w).nn.toNat = w.toNat % 256 := by
  simp only [fieldsOf, BitVec.extractLsb'_toNat, Nat.shiftRight_eq_div_pow]
  omega

theorem fieldsOf_nnn (w : Word) : (fieldsOf w).nnn.toNat = w.toNat % 4096 := by
  simp only [fieldsOf, BitVec.extractLsb'_toNat, Nat.shiftRight_eq_div_pow]
  omega

/-- The fields of one word overlap as R71 says. -/
theorem fieldsOf_wf (w : Word) : (fieldsOf w).wf = true := by
  simp only [Fields.wf, Bool.and_eq_true, beq_iff_eq, fieldsOf_nn, fieldsOf_nnn, fieldsOf_x, fieldsOf_y, fieldsOf_n]
  omega

@[simp] theorem fieldsOf_wordA_nnn (o : BitVec 4) (nnn : BitVec 12) : (fieldsOf (wordA o nnn)).nnn = nnn := by
  apply BitVec.eq_of_toNat_eq
  have := nnn.isLt
  rw [fieldsOf_nnn, wordA_toNat]
  omega

@[simp] theorem fieldsOf_wordXNN_x (o : BitVec 4) (x : Reg) (nn : Byte) : (fieldsOf (wordXNN o x nn)).x = x := by
  have := nn.isLt
  have := x.isLt
  rw [Fin.ext_iff, fieldsOf_x, wordXNN_toNat]
  omega

@[simp] theorem fieldsOf_wordXNN_nn (o : BitVec 4) (x : Reg) (nn : Byte) : (fieldsOf (wordXNN o x nn)).nn = nn := by
  apply BitVec.eq_of_toNat_eq
  have := nn.isLt
  rw [fieldsOf_nn, wordXNN_toNat]
  omega

@[simp] theorem fieldsOf_wordXYN_x (o : BitVec 4) (x y : Reg) (d : BitVec 4) : (fieldsOf (wordXYN o x y d)).x = x := by
  have := x.isLt
  have := y.isLt
  have := d.isLt
  rw [Fin.ext_iff, fieldsOf_x, wordXYN_toNat]
  omega

@[simp] theorem fieldsOf_wordXYN_y (o : BitVec 4) (x y : Reg) (d : BitVec 4) : (fieldsOf (wordXYN o x y d)).y = y := by
  have := y.isLt
  have := d.isLt
  rw [Fin.ext_iff, fieldsOf_y, wordXYN_toNat]
  omega

@[simp] theorem fieldsOf_wordXYN_n (o : BitVec 4) (x y n : Fin 16) : (fieldsOf (wordXYN o x y (nibble n))).n = n := by
  have := n.isLt
  rw [Fin.ext_iff, fieldsOf_n, wordXYN_toNat, nibble_toNat]
  omega

/-! ### What a mask keeps of a word (30_encoding.md R78) -/

theorem append_mask_high (o : BitVec 4) (r : BitVec 12) :
    ((o ++ r : BitVec (4 + 12)) &&& (0xF000 : BitVec (4 + 12))) = o ++ 0#12 := by
  rw [show (0xF000 : BitVec (4 + 12)) = BitVec.allOnes 4 ++ 0#12 from rfl, BitVec.and_append,
    BitVec.and_allOnes, BitVec.and_zero]

theorem wordA_mask (o : BitVec 4) (nnn : BitVec 12) : wordA o nnn &&& 0xF000 = o ++ 0#12 :=
  append_mask_high o nnn

theorem wordXNN_mask (o : BitVec 4) (x : Reg) (nn : Byte) : wordXNN o x nn &&& 0xF000 = o ++ 0#12 :=
  append_mask_high o _

theorem wordXYN_mask (o : BitVec 4) (x y : Reg) (d : BitVec 4) : wordXYN o x y d &&& 0xF000 = o ++ 0#12 :=
  append_mask_high o _

theorem wordXNN_mask_byte (o : BitVec 4) (x : Reg) (nn : Byte) :
    (wordXNN o x nn &&& 0xF0FF : Word) = (o ++ (0#4 ++ nn) : Word) := by
  show (o ++ (nibble x ++ nn) : BitVec (4 + (4 + 8))) &&& (BitVec.allOnes 4 ++ (0#4 ++ BitVec.allOnes 8)) = _
  rw [BitVec.and_append, BitVec.and_append, BitVec.and_allOnes, BitVec.and_zero, BitVec.and_allOnes]

theorem wordXYN_mask_digit (o : BitVec 4) (x y : Reg) (d : BitVec 4) :
    (wordXYN o x y d &&& 0xF00F : Word) = (o ++ (0#4 ++ (0#4 ++ d)) : Word) := by
  show (o ++ (nibble x ++ (nibble y ++ d)) : BitVec (4 + (4 + (4 + 4)))) &&&
    (BitVec.allOnes 4 ++ (0#4 ++ (0#4 ++ BitVec.allOnes 4))) = _
  rw [BitVec.and_append, BitVec.and_append, BitVec.and_append, BitVec.and_allOnes, BitVec.and_zero,
    BitVec.and_zero, BitVec.and_allOnes]

/-! ### The search of a table -/

/-- In a table whose rows exclude each other, the search finds the row a word matches. -/
theorem find_row {t : List Row} (hp : t.Pairwise fun r q => ∀ w : Word, ¬ (r.hits w = true ∧ q.hits w = true))
    {r : Row} (hr : r ∈ t) {w : Word} (h : r.hits w = true) : t.find? (·.hits w) = some r := by
  induction t with
  | nil => cases hr
  | cons q rest ih =>
    rw [List.pairwise_cons] at hp
    rcases List.mem_cons.1 hr with rfl | hr
    · rw [List.find?_cons, h]
    · have hq : q.hits w = false := by
        cases hq : q.hits w
        · rfl
        · exact absurd ⟨hq, h⟩ (hp.1 r hr w)
      rw [List.find?_cons, hq]
      exact ih hp.2 hr

/-! ### Bytes -/

@[simp] theorem bytesOfWord_length (w : Word) : (bytesOfWord w).length = 2 := rfl

/-- The word of its own two bytes (20_memory.md R53). -/
theorem wordOfBytes_bytes (w : Word) : wordOfBytes (w.extractLsb' 8 8) (w.extractLsb' 0 8) = w := by
  apply BitVec.eq_of_toNat_eq
  have := w.isLt
  rw [wordOfBytes_toNat, BitVec.extractLsb'_toNat, BitVec.extractLsb'_toNat, Nat.shiftRight_eq_div_pow, Nat.shiftRight_zero]
  omega

/-- Two bytes decode as their word does, and the rest is left. -/
theorem decode_two (hi lo : Byte) (rest : List Byte) :
    decode (hi :: lo :: rest) =
      match decodeWord (wordOfBytes hi lo) with
      | some i => .ok (i, rest)
      | none => .error (.unknownOpcode (wordOfBytes hi lo)) := rfl

theorem decodeTableWord_eq (nbits w : Nat) : decodeTableWord nbits w = decodeWord (tableWord nbits w) := by
  simp only [decodeTableWord, bytesOfWord, decode_two, wordOfBytes_bytes]
  cases decodeWord (tableWord nbits w) <;> rfl

end Sys2Proof
end

