-- ==== Sys2Proof/Laws/State.lean ====
section
/-! SUPPORT. One lemma per field per update of the state, and what the accessors read after an update. -/

namespace Sys2Proof.Machine

/-! `setVs` -/

@[simp] theorem setVs_v (w : Vector Byte 16) (s : State) : (setVs w s).v = w := rfl
@[simp] theorem setVs_i (w : Vector Byte 16) (s : State) : (setVs w s).i = s.i := rfl
@[simp] theorem setVs_pc (w : Vector Byte 16) (s : State) : (setVs w s).pc = s.pc := rfl
@[simp] theorem setVs_sp (w : Vector Byte 16) (s : State) : (setVs w s).sp = s.sp := rfl
@[simp] theorem setVs_stack (w : Vector Byte 16) (s : State) : (setVs w s).stack = s.stack := rfl
@[simp] theorem setVs_dt (w : Vector Byte 16) (s : State) : (setVs w s).dt = s.dt := rfl
@[simp] theorem setVs_st (w : Vector Byte 16) (s : State) : (setVs w s).st = s.st := rfl
@[simp] theorem setVs_key (w : Vector Byte 16) (s : State) : (setVs w s).key = s.key := rfl
@[simp] theorem setVs_fb (w : Vector Byte 16) (s : State) : (setVs w s).fb = s.fb := rfl
@[simp] theorem setVs_mem (w : Vector Byte 16) (s : State) : (setVs w s).mem = s.mem := rfl
@[simp] theorem setVs_fault (w : Vector Byte 16) (s : State) : (setVs w s).fault = s.fault := rfl
@[simp] theorem setVs_cfg (w : Vector Byte 16) (s : State) : (setVs w s).cfg = s.cfg := rfl
@[simp] theorem setVs_draws (w : Vector Byte 16) (s : State) : (setVs w s).draws = s.draws := rfl
@[simp] theorem setVs_result (w : Vector Byte 16) (s : State) : (setVs w s).result = s.result := rfl
@[simp] theorem readByte_setVs (w : Vector Byte 16) (s : State) (a : Nat) : readByte (setVs w s) a = readByte s a := rfl

/-! `setI` -/

@[simp] theorem setI_v (w : Addr) (s : State) : (setI w s).v = s.v := rfl
@[simp] theorem setI_i (w : Addr) (s : State) : (setI w s).i = w := rfl
@[simp] theorem setI_pc (w : Addr) (s : State) : (setI w s).pc = s.pc := rfl
@[simp] theorem setI_sp (w : Addr) (s : State) : (setI w s).sp = s.sp := rfl
@[simp] theorem setI_stack (w : Addr) (s : State) : (setI w s).stack = s.stack := rfl
@[simp] theorem setI_dt (w : Addr) (s : State) : (setI w s).dt = s.dt := rfl
@[simp] theorem setI_st (w : Addr) (s : State) : (setI w s).st = s.st := rfl
@[simp] theorem setI_key (w : Addr) (s : State) : (setI w s).key = s.key := rfl
@[simp] theorem setI_fb (w : Addr) (s : State) : (setI w s).fb = s.fb := rfl
@[simp] theorem setI_mem (w : Addr) (s : State) : (setI w s).mem = s.mem := rfl
@[simp] theorem setI_fault (w : Addr) (s : State) : (setI w s).fault = s.fault := rfl
@[simp] theorem setI_cfg (w : Addr) (s : State) : (setI w s).cfg = s.cfg := rfl
@[simp] theorem setI_draws (w : Addr) (s : State) : (setI w s).draws = s.draws := rfl
@[simp] theorem setI_result (w : Addr) (s : State) : (setI w s).result = s.result := rfl
@[simp] theorem getV_setI (w : Addr) (s : State) (x : Reg) : getV (setI w s) x = getV s x := rfl
@[simp] theorem readByte_setI (w : Addr) (s : State) (a : Nat) : readByte (setI w s) a = readByte s a := rfl

/-! `setPc` -/

@[simp] theorem setPc_v (w : Addr) (s : State) : (setPc w s).v = s.v := rfl
@[simp] theorem setPc_i (w : Addr) (s : State) : (setPc w s).i = s.i := rfl
@[simp] theorem setPc_pc (w : Addr) (s : State) : (setPc w s).pc = w := rfl
@[simp] theorem setPc_sp (w : Addr) (s : State) : (setPc w s).sp = s.sp := rfl
@[simp] theorem setPc_stack (w : Addr) (s : State) : (setPc w s).stack = s.stack := rfl
@[simp] theorem setPc_dt (w : Addr) (s : State) : (setPc w s).dt = s.dt := rfl
@[simp] theorem setPc_st (w : Addr) (s : State) : (setPc w s).st = s.st := rfl
@[simp] theorem setPc_key (w : Addr) (s : State) : (setPc w s).key = s.key := rfl
@[simp] theorem setPc_fb (w : Addr) (s : State) : (setPc w s).fb = s.fb := rfl
@[simp] theorem setPc_mem (w : Addr) (s : State) : (setPc w s).mem = s.mem := rfl
@[simp] theorem setPc_fault (w : Addr) (s : State) : (setPc w s).fault = s.fault := rfl
@[simp] theorem setPc_cfg (w : Addr) (s : State) : (setPc w s).cfg = s.cfg := rfl
@[simp] theorem setPc_draws (w : Addr) (s : State) : (setPc w s).draws = s.draws := rfl
@[simp] theorem setPc_result (w : Addr) (s : State) : (setPc w s).result = s.result := rfl
@[simp] theorem getV_setPc (w : Addr) (s : State) (x : Reg) : getV (setPc w s) x = getV s x := rfl
@[simp] theorem readByte_setPc (w : Addr) (s : State) (a : Nat) : readByte (setPc w s) a = readByte s a := rfl

/-! `setSp` -/

@[simp] theorem setSp_v (w : Fin 17) (s : State) : (setSp w s).v = s.v := rfl
@[simp] theorem setSp_i (w : Fin 17) (s : State) : (setSp w s).i = s.i := rfl
@[simp] theorem setSp_pc (w : Fin 17) (s : State) : (setSp w s).pc = s.pc := rfl
@[simp] theorem setSp_sp (w : Fin 17) (s : State) : (setSp w s).sp = w := rfl
@[simp] theorem setSp_stack (w : Fin 17) (s : State) : (setSp w s).stack = s.stack := rfl
@[simp] theorem setSp_dt (w : Fin 17) (s : State) : (setSp w s).dt = s.dt := rfl
@[simp] theorem setSp_st (w : Fin 17) (s : State) : (setSp w s).st = s.st := rfl
@[simp] theorem setSp_key (w : Fin 17) (s : State) : (setSp w s).key = s.key := rfl
@[simp] theorem setSp_fb (w : Fin 17) (s : State) : (setSp w s).fb = s.fb := rfl
@[simp] theorem setSp_mem (w : Fin 17) (s : State) : (setSp w s).mem = s.mem := rfl
@[simp] theorem setSp_fault (w : Fin 17) (s : State) : (setSp w s).fault = s.fault := rfl
@[simp] theorem setSp_cfg (w : Fin 17) (s : State) : (setSp w s).cfg = s.cfg := rfl
@[simp] theorem setSp_draws (w : Fin 17) (s : State) : (setSp w s).draws = s.draws := rfl
@[simp] theorem setSp_result (w : Fin 17) (s : State) : (setSp w s).result = s.result := rfl
@[simp] theorem getV_setSp (w : Fin 17) (s : State) (x : Reg) : getV (setSp w s) x = getV s x := rfl
@[simp] theorem readByte_setSp (w : Fin 17) (s : State) (a : Nat) : readByte (setSp w s) a = readByte s a := rfl

/-! `setStack` -/

@[simp] theorem setStack_v (w : Vector Addr 16) (s : State) : (setStack w s).v = s.v := rfl
@[simp] theorem setStack_i (w : Vector Addr 16) (s : State) : (setStack w s).i = s.i := rfl
@[simp] theorem setStack_pc (w : Vector Addr 16) (s : State) : (setStack w s).pc = s.pc := rfl
@[simp] theorem setStack_sp (w : Vector Addr 16) (s : State) : (setStack w s).sp = s.sp := rfl
@[simp] theorem setStack_stack (w : Vector Addr 16) (s : State) : (setStack w s).stack = w := rfl
@[simp] theorem setStack_dt (w : Vector Addr 16) (s : State) : (setStack w s).dt = s.dt := rfl
@[simp] theorem setStack_st (w : Vector Addr 16) (s : State) : (setStack w s).st = s.st := rfl
@[simp] theorem setStack_key (w : Vector Addr 16) (s : State) : (setStack w s).key = s.key := rfl
@[simp] theorem setStack_fb (w : Vector Addr 16) (s : State) : (setStack w s).fb = s.fb := rfl
@[simp] theorem setStack_mem (w : Vector Addr 16) (s : State) : (setStack w s).mem = s.mem := rfl
@[simp] theorem setStack_fault (w : Vector Addr 16) (s : State) : (setStack w s).fault = s.fault := rfl
@[simp] theorem setStack_cfg (w : Vector Addr 16) (s : State) : (setStack w s).cfg = s.cfg := rfl
@[simp] theorem setStack_draws (w : Vector Addr 16) (s : State) : (setStack w s).draws = s.draws := rfl
@[simp] theorem setStack_result (w : Vector Addr 16) (s : State) : (setStack w s).result = s.result := rfl
@[simp] theorem getV_setStack (w : Vector Addr 16) (s : State) (x : Reg) : getV (setStack w s) x = getV s x := rfl
@[simp] theorem readByte_setStack (w : Vector Addr 16) (s : State) (a : Nat) : readByte (setStack w s) a = readByte s a := rfl

/-! `setDt` -/

@[simp] theorem setDt_v (w : Byte) (s : State) : (setDt w s).v = s.v := rfl
@[simp] theorem setDt_i (w : Byte) (s : State) : (setDt w s).i = s.i := rfl
@[simp] theorem setDt_pc (w : Byte) (s : State) : (setDt w s).pc = s.pc := rfl
@[simp] theorem setDt_sp (w : Byte) (s : State) : (setDt w s).sp = s.sp := rfl
@[simp] theorem setDt_stack (w : Byte) (s : State) : (setDt w s).stack = s.stack := rfl
@[simp] theorem setDt_dt (w : Byte) (s : State) : (setDt w s).dt = w := rfl
@[simp] theorem setDt_st (w : Byte) (s : State) : (setDt w s).st = s.st := rfl
@[simp] theorem setDt_key (w : Byte) (s : State) : (setDt w s).key = s.key := rfl
@[simp] theorem setDt_fb (w : Byte) (s : State) : (setDt w s).fb = s.fb := rfl
@[simp] theorem setDt_mem (w : Byte) (s : State) : (setDt w s).mem = s.mem := rfl
@[simp] theorem setDt_fault (w : Byte) (s : State) : (setDt w s).fault = s.fault := rfl
@[simp] theorem setDt_cfg (w : Byte) (s : State) : (setDt w s).cfg = s.cfg := rfl
@[simp] theorem setDt_draws (w : Byte) (s : State) : (setDt w s).draws = s.draws := rfl
@[simp] theorem setDt_result (w : Byte) (s : State) : (setDt w s).result = s.result := rfl
@[simp] theorem getV_setDt (w : Byte) (s : State) (x : Reg) : getV (setDt w s) x = getV s x := rfl
@[simp] theorem readByte_setDt (w : Byte) (s : State) (a : Nat) : readByte (setDt w s) a = readByte s a := rfl

/-! `setSt` -/

@[simp] theorem setSt_v (w : Byte) (s : State) : (setSt w s).v = s.v := rfl
@[simp] theorem setSt_i (w : Byte) (s : State) : (setSt w s).i = s.i := rfl
@[simp] theorem setSt_pc (w : Byte) (s : State) : (setSt w s).pc = s.pc := rfl
@[simp] theorem setSt_sp (w : Byte) (s : State) : (setSt w s).sp = s.sp := rfl
@[simp] theorem setSt_stack (w : Byte) (s : State) : (setSt w s).stack = s.stack := rfl
@[simp] theorem setSt_dt (w : Byte) (s : State) : (setSt w s).dt = s.dt := rfl
@[simp] theorem setSt_st (w : Byte) (s : State) : (setSt w s).st = w := rfl
@[simp] theorem setSt_key (w : Byte) (s : State) : (setSt w s).key = s.key := rfl
@[simp] theorem setSt_fb (w : Byte) (s : State) : (setSt w s).fb = s.fb := rfl
@[simp] theorem setSt_mem (w : Byte) (s : State) : (setSt w s).mem = s.mem := rfl
@[simp] theorem setSt_fault (w : Byte) (s : State) : (setSt w s).fault = s.fault := rfl
@[simp] theorem setSt_cfg (w : Byte) (s : State) : (setSt w s).cfg = s.cfg := rfl
@[simp] theorem setSt_draws (w : Byte) (s : State) : (setSt w s).draws = s.draws := rfl
@[simp] theorem setSt_result (w : Byte) (s : State) : (setSt w s).result = s.result := rfl
@[simp] theorem getV_setSt (w : Byte) (s : State) (x : Reg) : getV (setSt w s) x = getV s x := rfl
@[simp] theorem readByte_setSt (w : Byte) (s : State) (a : Nat) : readByte (setSt w s) a = readByte s a := rfl

/-! `setKey` -/

@[simp] theorem setKey_v (w : Vector Bool 16) (s : State) : (setKey w s).v = s.v := rfl
@[simp] theorem setKey_i (w : Vector Bool 16) (s : State) : (setKey w s).i = s.i := rfl
@[simp] theorem setKey_pc (w : Vector Bool 16) (s : State) : (setKey w s).pc = s.pc := rfl
@[simp] theorem setKey_sp (w : Vector Bool 16) (s : State) : (setKey w s).sp = s.sp := rfl
@[simp] theorem setKey_stack (w : Vector Bool 16) (s : State) : (setKey w s).stack = s.stack := rfl
@[simp] theorem setKey_dt (w : Vector Bool 16) (s : State) : (setKey w s).dt = s.dt := rfl
@[simp] theorem setKey_st (w : Vector Bool 16) (s : State) : (setKey w s).st = s.st := rfl
@[simp] theorem setKey_key (w : Vector Bool 16) (s : State) : (setKey w s).key = w := rfl
@[simp] theorem setKey_fb (w : Vector Bool 16) (s : State) : (setKey w s).fb = s.fb := rfl
@[simp] theorem setKey_mem (w : Vector Bool 16) (s : State) : (setKey w s).mem = s.mem := rfl
@[simp] theorem setKey_fault (w : Vector Bool 16) (s : State) : (setKey w s).fault = s.fault := rfl
@[simp] theorem setKey_cfg (w : Vector Bool 16) (s : State) : (setKey w s).cfg = s.cfg := rfl
@[simp] theorem setKey_draws (w : Vector Bool 16) (s : State) : (setKey w s).draws = s.draws := rfl
@[simp] theorem setKey_result (w : Vector Bool 16) (s : State) : (setKey w s).result = s.result := rfl
@[simp] theorem getV_setKey (w : Vector Bool 16) (s : State) (x : Reg) : getV (setKey w s) x = getV s x := rfl
@[simp] theorem readByte_setKey (w : Vector Bool 16) (s : State) (a : Nat) : readByte (setKey w s) a = readByte s a := rfl

/-! `setFb` -/

@[simp] theorem setFb_v (w : Framebuffer) (s : State) : (setFb w s).v = s.v := rfl
@[simp] theorem setFb_i (w : Framebuffer) (s : State) : (setFb w s).i = s.i := rfl
@[simp] theorem setFb_pc (w : Framebuffer) (s : State) : (setFb w s).pc = s.pc := rfl
@[simp] theorem setFb_sp (w : Framebuffer) (s : State) : (setFb w s).sp = s.sp := rfl
@[simp] theorem setFb_stack (w : Framebuffer) (s : State) : (setFb w s).stack = s.stack := rfl
@[simp] theorem setFb_dt (w : Framebuffer) (s : State) : (setFb w s).dt = s.dt := rfl
@[simp] theorem setFb_st (w : Framebuffer) (s : State) : (setFb w s).st = s.st := rfl
@[simp] theorem setFb_key (w : Framebuffer) (s : State) : (setFb w s).key = s.key := rfl
@[simp] theorem setFb_fb (w : Framebuffer) (s : State) : (setFb w s).fb = w := rfl
@[simp] theorem setFb_mem (w : Framebuffer) (s : State) : (setFb w s).mem = s.mem := rfl
@[simp] theorem setFb_fault (w : Framebuffer) (s : State) : (setFb w s).fault = s.fault := rfl
@[simp] theorem setFb_cfg (w : Framebuffer) (s : State) : (setFb w s).cfg = s.cfg := rfl
@[simp] theorem setFb_draws (w : Framebuffer) (s : State) : (setFb w s).draws = s.draws := rfl
@[simp] theorem setFb_result (w : Framebuffer) (s : State) : (setFb w s).result = s.result := rfl
@[simp] theorem getV_setFb (w : Framebuffer) (s : State) (x : Reg) : getV (setFb w s) x = getV s x := rfl
@[simp] theorem readByte_setFb (w : Framebuffer) (s : State) (a : Nat) : readByte (setFb w s) a = readByte s a := rfl

/-! `setMem` -/

@[simp] theorem setMem_v (w : Memory) (s : State) : (setMem w s).v = s.v := rfl
@[simp] theorem setMem_i (w : Memory) (s : State) : (setMem w s).i = s.i := rfl
@[simp] theorem setMem_pc (w : Memory) (s : State) : (setMem w s).pc = s.pc := rfl
@[simp] theorem setMem_sp (w : Memory) (s : State) : (setMem w s).sp = s.sp := rfl
@[simp] theorem setMem_stack (w : Memory) (s : State) : (setMem w s).stack = s.stack := rfl
@[simp] theorem setMem_dt (w : Memory) (s : State) : (setMem w s).dt = s.dt := rfl
@[simp] theorem setMem_st (w : Memory) (s : State) : (setMem w s).st = s.st := rfl
@[simp] theorem setMem_key (w : Memory) (s : State) : (setMem w s).key = s.key := rfl
@[simp] theorem setMem_fb (w : Memory) (s : State) : (setMem w s).fb = s.fb := rfl
@[simp] theorem setMem_mem (w : Memory) (s : State) : (setMem w s).mem = w := rfl
@[simp] theorem setMem_fault (w : Memory) (s : State) : (setMem w s).fault = s.fault := rfl
@[simp] theorem setMem_cfg (w : Memory) (s : State) : (setMem w s).cfg = s.cfg := rfl
@[simp] theorem setMem_draws (w : Memory) (s : State) : (setMem w s).draws = s.draws := rfl
@[simp] theorem setMem_result (w : Memory) (s : State) : (setMem w s).result = s.result := rfl
@[simp] theorem getV_setMem (w : Memory) (s : State) (x : Reg) : getV (setMem w s) x = getV s x := rfl

/-! `setFault` -/

@[simp] theorem setFault_v (w : Option (Fault × Addr)) (s : State) : (setFault w s).v = s.v := rfl
@[simp] theorem setFault_i (w : Option (Fault × Addr)) (s : State) : (setFault w s).i = s.i := rfl
@[simp] theorem setFault_pc (w : Option (Fault × Addr)) (s : State) : (setFault w s).pc = s.pc := rfl
@[simp] theorem setFault_sp (w : Option (Fault × Addr)) (s : State) : (setFault w s).sp = s.sp := rfl
@[simp] theorem setFault_stack (w : Option (Fault × Addr)) (s : State) : (setFault w s).stack = s.stack := rfl
@[simp] theorem setFault_dt (w : Option (Fault × Addr)) (s : State) : (setFault w s).dt = s.dt := rfl
@[simp] theorem setFault_st (w : Option (Fault × Addr)) (s : State) : (setFault w s).st = s.st := rfl
@[simp] theorem setFault_key (w : Option (Fault × Addr)) (s : State) : (setFault w s).key = s.key := rfl
@[simp] theorem setFault_fb (w : Option (Fault × Addr)) (s : State) : (setFault w s).fb = s.fb := rfl
@[simp] theorem setFault_mem (w : Option (Fault × Addr)) (s : State) : (setFault w s).mem = s.mem := rfl
@[simp] theorem setFault_fault (w : Option (Fault × Addr)) (s : State) : (setFault w s).fault = w := rfl
@[simp] theorem setFault_cfg (w : Option (Fault × Addr)) (s : State) : (setFault w s).cfg = s.cfg := rfl
@[simp] theorem setFault_draws (w : Option (Fault × Addr)) (s : State) : (setFault w s).draws = s.draws := rfl
@[simp] theorem setFault_result (w : Option (Fault × Addr)) (s : State) : (setFault w s).result = s.result := rfl
@[simp] theorem getV_setFault (w : Option (Fault × Addr)) (s : State) (x : Reg) : getV (setFault w s) x = getV s x := rfl
@[simp] theorem readByte_setFault (w : Option (Fault × Addr)) (s : State) (a : Nat) : readByte (setFault w s) a = readByte s a := rfl

/-! `setDraws` -/

@[simp] theorem setDraws_v (w : Nat) (s : State) : (setDraws w s).v = s.v := rfl
@[simp] theorem setDraws_i (w : Nat) (s : State) : (setDraws w s).i = s.i := rfl
@[simp] theorem setDraws_pc (w : Nat) (s : State) : (setDraws w s).pc = s.pc := rfl
@[simp] theorem setDraws_sp (w : Nat) (s : State) : (setDraws w s).sp = s.sp := rfl
@[simp] theorem setDraws_stack (w : Nat) (s : State) : (setDraws w s).stack = s.stack := rfl
@[simp] theorem setDraws_dt (w : Nat) (s : State) : (setDraws w s).dt = s.dt := rfl
@[simp] theorem setDraws_st (w : Nat) (s : State) : (setDraws w s).st = s.st := rfl
@[simp] theorem setDraws_key (w : Nat) (s : State) : (setDraws w s).key = s.key := rfl
@[simp] theorem setDraws_fb (w : Nat) (s : State) : (setDraws w s).fb = s.fb := rfl
@[simp] theorem setDraws_mem (w : Nat) (s : State) : (setDraws w s).mem = s.mem := rfl
@[simp] theorem setDraws_fault (w : Nat) (s : State) : (setDraws w s).fault = s.fault := rfl
@[simp] theorem setDraws_cfg (w : Nat) (s : State) : (setDraws w s).cfg = s.cfg := rfl
@[simp] theorem setDraws_draws (w : Nat) (s : State) : (setDraws w s).draws = w := rfl
@[simp] theorem setDraws_result (w : Nat) (s : State) : (setDraws w s).result = s.result := rfl
@[simp] theorem getV_setDraws (w : Nat) (s : State) (x : Reg) : getV (setDraws w s) x = getV s x := rfl
@[simp] theorem readByte_setDraws (w : Nat) (s : State) (a : Nat) : readByte (setDraws w s) a = readByte s a := rfl

/-! `setResult` -/

@[simp] theorem setResult_v (w : StepResult) (s : State) : (setResult w s).v = s.v := rfl
@[simp] theorem setResult_i (w : StepResult) (s : State) : (setResult w s).i = s.i := rfl
@[simp] theorem setResult_pc (w : StepResult) (s : State) : (setResult w s).pc = s.pc := rfl
@[simp] theorem setResult_sp (w : StepResult) (s : State) : (setResult w s).sp = s.sp := rfl
@[simp] theorem setResult_stack (w : StepResult) (s : State) : (setResult w s).stack = s.stack := rfl
@[simp] theorem setResult_dt (w : StepResult) (s : State) : (setResult w s).dt = s.dt := rfl
@[simp] theorem setResult_st (w : StepResult) (s : State) : (setResult w s).st = s.st := rfl
@[simp] theorem setResult_key (w : StepResult) (s : State) : (setResult w s).key = s.key := rfl
@[simp] theorem setResult_fb (w : StepResult) (s : State) : (setResult w s).fb = s.fb := rfl
@[simp] theorem setResult_mem (w : StepResult) (s : State) : (setResult w s).mem = s.mem := rfl
@[simp] theorem setResult_fault (w : StepResult) (s : State) : (setResult w s).fault = s.fault := rfl
@[simp] theorem setResult_cfg (w : StepResult) (s : State) : (setResult w s).cfg = s.cfg := rfl
@[simp] theorem setResult_draws (w : StepResult) (s : State) : (setResult w s).draws = s.draws := rfl
@[simp] theorem setResult_result (w : StepResult) (s : State) : (setResult w s).result = w := rfl
@[simp] theorem getV_setResult (w : StepResult) (s : State) (x : Reg) : getV (setResult w s) x = getV s x := rfl
@[simp] theorem readByte_setResult (w : StepResult) (s : State) (a : Nat) : readByte (setResult w s) a = readByte s a := rfl

/-! `setV` -/

@[simp] theorem setV_i (x : Reg) (b : Byte) (s : State) : (setV x b s).i = s.i := rfl
@[simp] theorem setV_pc (x : Reg) (b : Byte) (s : State) : (setV x b s).pc = s.pc := rfl
@[simp] theorem setV_sp (x : Reg) (b : Byte) (s : State) : (setV x b s).sp = s.sp := rfl
@[simp] theorem setV_stack (x : Reg) (b : Byte) (s : State) : (setV x b s).stack = s.stack := rfl
@[simp] theorem setV_dt (x : Reg) (b : Byte) (s : State) : (setV x b s).dt = s.dt := rfl
@[simp] theorem setV_st (x : Reg) (b : Byte) (s : State) : (setV x b s).st = s.st := rfl
@[simp] theorem setV_key (x : Reg) (b : Byte) (s : State) : (setV x b s).key = s.key := rfl
@[simp] theorem setV_fb (x : Reg) (b : Byte) (s : State) : (setV x b s).fb = s.fb := rfl
@[simp] theorem setV_mem (x : Reg) (b : Byte) (s : State) : (setV x b s).mem = s.mem := rfl
@[simp] theorem setV_fault (x : Reg) (b : Byte) (s : State) : (setV x b s).fault = s.fault := rfl
@[simp] theorem setV_cfg (x : Reg) (b : Byte) (s : State) : (setV x b s).cfg = s.cfg := rfl
@[simp] theorem setV_draws (x : Reg) (b : Byte) (s : State) : (setV x b s).draws = s.draws := rfl
@[simp] theorem setV_result (x : Reg) (b : Byte) (s : State) : (setV x b s).result = s.result := rfl
@[simp] theorem readByte_setV (x : Reg) (b : Byte) (s : State) (a : Nat) : readByte (setV x b s) a = readByte s a := rfl

/-- A register reads back the last value written to it, and no other register changes (10_state.md R20). -/
theorem getV_setV (x y : Reg) (b : Byte) (s : State) : getV (setV x b s) y = if x = y then b else getV s y := by
  simp only [getV, setV, setVs_v, Vector.getElem_set]
  congr 1
  exact propext Fin.ext_iff.symm

@[simp] theorem getV_setV_same (x : Reg) (b : Byte) (s : State) : getV (setV x b s) x = b := by
  simp [getV_setV]

@[simp] theorem getV_setV_other {x y : Reg} (h : x ≠ y) (b : Byte) (s : State) : getV (setV x b s) y = getV s y := by
  simp [getV_setV, h]

/-! Stores -/

@[simp] theorem writeByte_v (a : Nat) (b : Byte) (s : State) : (writeByte a b s).v = s.v := rfl
@[simp] theorem writeBytes_v (a : Nat) (bs : List Byte) (s : State) : (writeBytes a bs s).v = s.v := rfl
@[simp] theorem writeByte_i (a : Nat) (b : Byte) (s : State) : (writeByte a b s).i = s.i := rfl
@[simp] theorem writeBytes_i (a : Nat) (bs : List Byte) (s : State) : (writeBytes a bs s).i = s.i := rfl
@[simp] theorem writeByte_pc (a : Nat) (b : Byte) (s : State) : (writeByte a b s).pc = s.pc := rfl
@[simp] theorem writeBytes_pc (a : Nat) (bs : List Byte) (s : State) : (writeBytes a bs s).pc = s.pc := rfl
@[simp] theorem writeByte_sp (a : Nat) (b : Byte) (s : State) : (writeByte a b s).sp = s.sp := rfl
@[simp] theorem writeBytes_sp (a : Nat) (bs : List Byte) (s : State) : (writeBytes a bs s).sp = s.sp := rfl
@[simp] theorem writeByte_stack (a : Nat) (b : Byte) (s : State) : (writeByte a b s).stack = s.stack := rfl
@[simp] theorem writeBytes_stack (a : Nat) (bs : List Byte) (s : State) : (writeBytes a bs s).stack = s.stack := rfl
@[simp] theorem writeByte_dt (a : Nat) (b : Byte) (s : State) : (writeByte a b s).dt = s.dt := rfl
@[simp] theorem writeBytes_dt (a : Nat) (bs : List Byte) (s : State) : (writeBytes a bs s).dt = s.dt := rfl
@[simp] theorem writeByte_st (a : Nat) (b : Byte) (s : State) : (writeByte a b s).st = s.st := rfl
@[simp] theorem writeBytes_st (a : Nat) (bs : List Byte) (s : State) : (writeBytes a bs s).st = s.st := rfl
@[simp] theorem writeByte_key (a : Nat) (b : Byte) (s : State) : (writeByte a b s).key = s.key := rfl
@[simp] theorem writeBytes_key (a : Nat) (bs : List Byte) (s : State) : (writeBytes a bs s).key = s.key := rfl
@[simp] theorem writeByte_fb (a : Nat) (b : Byte) (s : State) : (writeByte a b s).fb = s.fb := rfl
@[simp] theorem writeBytes_fb (a : Nat) (bs : List Byte) (s : State) : (writeBytes a bs s).fb = s.fb := rfl
@[simp] theorem writeByte_fault (a : Nat) (b : Byte) (s : State) : (writeByte a b s).fault = s.fault := rfl
@[simp] theorem writeBytes_fault (a : Nat) (bs : List Byte) (s : State) : (writeBytes a bs s).fault = s.fault := rfl
@[simp] theorem writeByte_cfg (a : Nat) (b : Byte) (s : State) : (writeByte a b s).cfg = s.cfg := rfl
@[simp] theorem writeBytes_cfg (a : Nat) (bs : List Byte) (s : State) : (writeBytes a bs s).cfg = s.cfg := rfl
@[simp] theorem writeByte_draws (a : Nat) (b : Byte) (s : State) : (writeByte a b s).draws = s.draws := rfl
@[simp] theorem writeBytes_draws (a : Nat) (bs : List Byte) (s : State) : (writeBytes a bs s).draws = s.draws := rfl
@[simp] theorem writeByte_result (a : Nat) (b : Byte) (s : State) : (writeByte a b s).result = s.result := rfl
@[simp] theorem writeBytes_result (a : Nat) (bs : List Byte) (s : State) : (writeBytes a bs s).result = s.result := rfl
@[simp] theorem getV_writeByte (a : Nat) (b : Byte) (s : State) (x : Reg) : getV (writeByte a b s) x = getV s x := rfl
@[simp] theorem getV_writeBytes (a : Nat) (bs : List Byte) (s : State) (x : Reg) : getV (writeBytes a bs s) x = getV s x := rfl

end Sys2Proof.Machine
end

