-- ==== Sys2Proof/Laws/Memory.lean ====
section
/-! SUPPORT. The memory: read after write, and the canonical form that every operation keeps. -/

namespace Sys2Proof.Machine

theorem Memory.read_insert (c : Params) (m : Memory) (a b : Nat) (v : Byte) :
    Memory.read c (Memory.insert m a v) b = if a = b then v else Memory.read c m b := by
  induction m with
  | nil => simp [Memory.insert, Memory.read]
  | cons e rest ih =>
    obtain ⟨d, u⟩ := e
    simp only [Memory.insert]
    split
    · simp only [Memory.read]
    · split
      · simp only [Memory.read]
        grind
      · simp only [Memory.read, ih]
        grind

theorem Memory.read_erase (c : Params) (m : Memory) (a b : Nat) :
    Memory.read c (Memory.erase m a) b = if a = b then Memory.unlisted c a else Memory.read c m b := by
  induction m with
  | nil => simp only [Memory.erase, Memory.read]; split <;> simp_all
  | cons e rest ih =>
    obtain ⟨d, u⟩ := e
    simp only [Memory.erase]
    split
    · simp only [ih, Memory.read]
      grind
    · simp only [Memory.read, ih]
      grind

/-- A read returns the byte of the last write to the address, and a write changes only its address (20_memory.md R59, R61). -/
theorem Memory.read_write (c : Params) (m : Memory) (a b : Nat) (v : Byte) (h : a < Config.memSize) :
    Memory.read c (Memory.write c m a v) b = if a = b then v else Memory.read c m b := by
  unfold Memory.write
  rw [if_neg (by omega)]
  split
  · rename_i hv
    rw [Memory.read_erase, hv]
  · exact Memory.read_insert c m a b v

theorem Memory.read_write_other (c : Params) (m : Memory) {a b : Nat} (v : Byte) (h : a ≠ b) :
    Memory.read c (Memory.write c m a v) b = Memory.read c m b := by
  by_cases ha : a < Config.memSize
  · rw [Memory.read_write c m a b v ha, if_neg h]
  · rw [Memory.write, if_pos (by omega)]

/-- Bytes written at `a`, `a + 1`, ...: each address of the range reads its byte, every other as before. -/
theorem Memory.read_writeAll (c : Params) (bytes : List Byte) (m : Memory) (a b : Nat)
    (h : a + bytes.length ≤ Config.memSize) :
    Memory.read c (Memory.writeAll c m a bytes) b =
      if hb : a ≤ b ∧ b < a + bytes.length then bytes[b - a]'(by omega) else Memory.read c m b := by
  induction bytes generalizing m a with
  | nil => simp only [Memory.writeAll, List.length_nil]; rw [dif_neg (by omega)]
  | cons v rest ih =>
    simp only [List.length_cons] at h
    rw [Memory.writeAll, ih _ _ (by omega)]
    by_cases h1 : a + 1 ≤ b ∧ b < a + 1 + rest.length
    · rw [dif_pos h1, dif_pos (by simp only [List.length_cons]; omega)]
      rw [List.getElem_cons, dif_neg (by omega)]
      congr 1
    · rw [dif_neg h1, Memory.read_write _ _ _ _ _ (by omega)]
      by_cases hab : a = b
      · subst hab; simp
      · rw [if_neg hab, dif_neg (by simp only [List.length_cons]; omega)]

theorem Memory.read_writeAll_outside (c : Params) (bytes : List Byte) (m : Memory) (a b : Nat)
    (h : b < a ∨ a + bytes.length ≤ b) :
    Memory.read c (Memory.writeAll c m a bytes) b = Memory.read c m b := by
  induction bytes generalizing m a with
  | nil => rfl
  | cons v rest ih =>
    simp only [List.length_cons] at h
    rw [Memory.writeAll, ih _ _ (by omega), Memory.read_write_other _ _ _ (by omega)]

/-! ### The canonical form -/

theorem Memory.above_insert {d a : Nat} {v : Byte} {m : Memory} (h : Memory.above d m = true) (ha : d < a) :
    Memory.above d (Memory.insert m a v) = true := by
  induction m with
  | nil => simp [Memory.insert, Memory.above, ha]
  | cons e rest ih =>
    obtain ⟨b, u⟩ := e
    simp only [Memory.above, List.all_cons, Bool.and_eq_true, decide_eq_true_eq] at h ih ⊢
    simp only [Memory.insert]
    split
    · simp only [List.all_cons, Bool.and_eq_true, decide_eq_true_eq]
      exact ⟨ha, h⟩
    · split
      · simp only [List.all_cons, Bool.and_eq_true, decide_eq_true_eq]
        exact ⟨ha, h.2⟩
      · simp only [List.all_cons, Bool.and_eq_true, decide_eq_true_eq]
        exact ⟨h.1, ih h.2⟩

theorem Memory.above_trans {d a : Nat} {m : Memory} (h : Memory.above a m = true) (ha : d < a) :
    Memory.above d m = true := by
  simp only [Memory.above, List.all_eq_true, decide_eq_true_eq] at h ⊢
  intro e he
  have := h e he
  omega

theorem Memory.above_erase {d a : Nat} {m : Memory} (h : Memory.above d m = true) :
    Memory.above d (Memory.erase m a) = true := by
  induction m with
  | nil => rfl
  | cons e rest ih =>
    obtain ⟨b, u⟩ := e
    simp only [Memory.above, List.all_cons, Bool.and_eq_true, decide_eq_true_eq] at h ih ⊢
    simp only [Memory.erase]
    split
    · exact ih h.2
    · simp [h.1, ih h.2]

/-- What the canonical form says of a list with a first entry. -/
theorem Memory.wf_cons (c : Params) (d : Nat) (u : Byte) (rest : Memory) :
    Memory.wf c ((d, u) :: rest) = true ↔
      Memory.above d rest = true ∧ d < Config.memSize ∧ u ≠ Memory.unlisted c d ∧ Memory.wf c rest = true := by
  simp only [Memory.wf, Memory.rising, List.all_cons, Bool.and_eq_true, decide_eq_true_eq, bne_iff_ne]
  tauto

theorem Memory.wf_insert {c : Params} {m : Memory} {a : Nat} {v : Byte} (h : Memory.wf c m = true)
    (ha : a < Config.memSize) (hv : v ≠ Memory.unlisted c a) : Memory.wf c (Memory.insert m a v) = true := by
  induction m with
  | nil => exact (Memory.wf_cons c a v []).2 ⟨rfl, ha, hv, rfl⟩
  | cons e rest ih =>
    obtain ⟨d, u⟩ := e
    obtain ⟨h1, h2, h3, h4⟩ := (Memory.wf_cons c d u rest).1 h
    simp only [Memory.insert]
    split
    · rename_i hlt
      refine (Memory.wf_cons _ _ _ _).2 ⟨?_, ha, hv, h⟩
      have := Memory.above_trans h1 hlt
      simp only [Memory.above, List.all_cons, Bool.and_eq_true, decide_eq_true_eq] at this ⊢
      exact ⟨hlt, this⟩
    · split
      · rename_i heq
        subst heq
        exact (Memory.wf_cons _ _ _ _).2 ⟨h1, ha, hv, h4⟩
      · exact (Memory.wf_cons _ _ _ _).2 ⟨Memory.above_insert h1 (by omega), h2, h3, ih h4⟩

theorem Memory.wf_erase {c : Params} {m : Memory} {a : Nat} (h : Memory.wf c m = true) :
    Memory.wf c (Memory.erase m a) = true := by
  induction m with
  | nil => exact h
  | cons e rest ih =>
    obtain ⟨d, u⟩ := e
    obtain ⟨h1, h2, h3, h4⟩ := (Memory.wf_cons c d u rest).1 h
    simp only [Memory.erase]
    split
    · exact ih h4
    · exact (Memory.wf_cons _ _ _ _).2 ⟨Memory.above_erase h1, h2, h3, ih h4⟩

theorem Memory.wf_write {c : Params} {m : Memory} (a : Nat) (v : Byte) (h : Memory.wf c m = true) :
    Memory.wf c (Memory.write c m a v) = true := by
  unfold Memory.write
  split
  · exact h
  · split
    · exact Memory.wf_erase h
    · rename_i h1 h2
      exact Memory.wf_insert h (by omega) h2

theorem Memory.wf_writeAll {c : Params} (bytes : List Byte) {m : Memory} (a : Nat) (h : Memory.wf c m = true) :
    Memory.wf c (Memory.writeAll c m a bytes) = true := by
  induction bytes generalizing m a with
  | nil => exact h
  | cons v rest ih => exact ih (a + 1) (Memory.wf_write a v h)

theorem Memory.wf_reset : Memory.wf State.reset.cfg State.reset.mem = true := rfl

/-- An address below every listed one reads as an unlisted address. -/
theorem Memory.read_of_above {c : Params} {m : Memory} {a : Nat} (h : Memory.above a m = true) :
    Memory.read c m a = Memory.unlisted c a := by
  induction m with
  | nil => rfl
  | cons e rest ih =>
    obtain ⟨d, u⟩ := e
    simp only [Memory.above, List.all_cons, Bool.and_eq_true, decide_eq_true_eq] at h ih
    rw [Memory.read, if_neg (by omega), ih h.2]

/-! ### Through the state -/

theorem readByte_writeByte (a b : Nat) (v : Byte) (s : State) (h : a < Config.memSize) :
    readByte (writeByte a v s) b = if a = b then v else readByte s b :=
  Memory.read_write s.cfg s.mem a b v h

theorem readByte_writeBytes (a b : Nat) (bytes : List Byte) (s : State) (h : a + bytes.length ≤ Config.memSize) :
    readByte (writeBytes a bytes s) b =
      if hb : a ≤ b ∧ b < a + bytes.length then bytes[b - a]'(by omega) else readByte s b :=
  Memory.read_writeAll s.cfg bytes s.mem a b h

/-- The k-th byte stored is what the k-th address of the range reads as. -/
theorem readByte_writeBytes_at (a k : Nat) (bytes : List Byte) (s : State) (hk : k < bytes.length)
    (h : a + bytes.length ≤ Config.memSize) : readByte (writeBytes a bytes s) (a + k) = bytes[k] := by
  rw [readByte_writeBytes _ _ _ _ h, dif_pos (by omega)]
  simp only [Nat.add_sub_cancel_left]

theorem readByte_writeBytes_outside (a b : Nat) (bytes : List Byte) (s : State)
    (h : b < a ∨ a + bytes.length ≤ b) : readByte (writeBytes a bytes s) b = readByte s b :=
  Memory.read_writeAll_outside s.cfg bytes s.mem a b h

@[simp] theorem readBytes_length (s : State) (a n : Nat) : (readBytes s a n).length = n := by
  simp [readBytes]

theorem readBytes_getElem (s : State) (a n k : Nat) (h : k < (readBytes s a n).length) :
    (readBytes s a n)[k] = readByte s (a + k) := by
  simp [readBytes]

end Sys2Proof.Machine
end

