-- ==== Sys2Proof/Laws/Ops.lean ====
section
/-! SUPPORT. One lemma for each shared operation, saying everything it can do. -/

namespace Sys2Proof.Machine

/-! ### How a step ends -/

theorem raise_eq (kind : Fault) (s : State) :
    raise kind s = .next { s with fault := some (kind, s.pc), result := .fault kind } := rfl

theorem complete_eq (e : Effect) (s : State) : complete e s = .next { s with result := .ok e } := rfl

theorem advance_eq (s : State) : advance s = .next { s with pc := s.pc + 2, result := .ok .none } := rfl

theorem jumpTo_eq (a : Addr) (s : State) : jumpTo a s = .next { s with pc := a, result := .ok .none } := rfl

theorem skipIf_eq (c : Bool) (s : State) :
    skipIf c s = .next { s with pc := if c then s.pc + 2 + 2 else s.pc + 2, result := .ok .none } := rfl

/-! ### The range check -/

/-- The check passes when there is nothing to access or the last byte lies below 4096. -/
theorem checkRange_eq_none (base : Addr) (n : Nat) :
    checkRange base n = none ↔ n = 0 ∨ base.toNat + n ≤ Config.memSize := by
  unfold checkRange
  constructor
  · intro h
    split at h
    · cases h
    · rename_i hf
      simp only [List.find?_eq_none, List.mem_range, decide_eq_true_eq] at hf
      by_cases h0 : n = 0
      · exact .inl h0
      · have := hf (n - 1) (by omega)
        right
        omega
  · intro h
    split
    · rename_i k hf
      have h1 := List.find?_some hf
      have h2 := List.mem_range.1 (List.mem_of_find?_eq_some hf)
      simp only [decide_eq_true_eq] at h1
      omega
    · rfl

/-- Otherwise it names the lowest failing address: the base itself when it is 4096 or more, and else 4096. -/
theorem checkRange_eq_some (base : Addr) (n : Nat) (h0 : 0 < n) (h : Config.memSize < base.toNat + n) :
    checkRange base n = some (.invalidAddress (if Config.memSize ≤ base.toNat then base else 0x1000)) := by
  unfold checkRange
  have hne : ((List.range n).find? fun k => decide (Config.memSize ≤ base.toNat + k)) =
      some (Config.memSize - base.toNat) := by
    rw [List.find?_range_eq_some]
    refine ⟨by simp only [decide_eq_true_eq]; omega, List.mem_range.2 (by omega), ?_⟩
    intro j hj
    simp only [Bool.not_eq_true', decide_eq_false_iff_not]
    omega
  rw [hne]
  simp only [Option.some.injEq, Fault.invalidAddress.injEq]
  split
  · rw [Nat.sub_eq_zero_of_le (by assumption), Nat.add_zero]
    simp
  · rw [Nat.add_sub_cancel' (by omega)]
    rfl

/-- What a failing check says. -/
theorem checkRange_fault {base : Addr} {n : Nat} {kind : Fault} (h : checkRange base n = some kind) :
    0 < n ∧ Config.memSize < base.toNat + n ∧
      kind = .invalidAddress (if Config.memSize ≤ base.toNat then base else 0x1000) := by
  by_cases hp : n = 0 ∨ base.toNat + n ≤ Config.memSize
  · rw [(checkRange_eq_none base n).2 hp] at h
    cases h
  · have h1 : 0 < n := by omega
    have h2 : Config.memSize < base.toNat + n := by omega
    rw [checkRange_eq_some base n h1 h2] at h
    exact ⟨h1, h2, (Option.some.inj h).symm⟩

/-! ### The fetch -/

/-- The check passes exactly on a PC that can be fetched from. -/
theorem checkFetch_eq_none (s : State) :
    checkFetch s = none ↔
      s.pc.toNat + 1 < Config.memSize ∧ (s.pc.toNat % 2 = 0 ∨ s.cfg.allowOddPc = true) := by
  unfold checkFetch
  simp only [Config.memSize]
  split
  · simp only [reduceCtorEq, false_iff]; omega
  · split
    · simp only [reduceCtorEq, false_iff]; omega
    · split
      · rename_i h
        simp only [reduceCtorEq, false_iff, h.2, Bool.false_eq_true, or_false]
        omega
      · rename_i h1 h2 h3
        simp only [true_iff]
        refine ⟨by omega, ?_⟩
        cases hc : s.cfg.allowOddPc
        · simp only [hc, and_true] at h3
          exact .inl (by omega)
        · exact .inr rfl

/-- Otherwise it names the first of the three faults (60_exceptions.md R254). -/
theorem checkFetch_fault {s : State} {kind : Fault} (h : checkFetch s = some kind) :
    (Config.memSize ≤ s.pc.toNat ∧ kind = .invalidAddress s.pc) ∨
    (s.pc.toNat = 0xFFF ∧ kind = .invalidAddress 0x1000) ∨
    (s.pc.toNat < 0xFFF ∧ s.pc.toNat % 2 = 1 ∧ s.cfg.allowOddPc = false ∧ kind = .misalignedPc s.pc) := by
  unfold checkFetch at h
  simp only [Config.memSize] at h ⊢
  split at h
  · exact .inl ⟨by assumption, (Option.some.inj h).symm⟩
  · split at h
    · refine .inr (.inl ⟨by omega, ?_⟩)
      rw [← Option.some.inj h]
      congr 1
      apply BitVec.eq_of_toNat_eq
      rw [BitVec.toNat_add]
      have : s.pc.toNat = 0xFFF := by omega
      rw [this]
      rfl
    · split at h
      · rename_i hc
        exact .inr (.inr ⟨by omega, hc.1, hc.2, (Option.some.inj h).symm⟩)
      · cases h

/-! ### The call stack -/

theorem push_full (a : Addr) (s : State) (h : s.sp.val = 16) : push a s = none := by
  unfold push
  rw [dif_neg (by omega)]

theorem push_eq (a : Addr) (s : State) (h : s.sp.val < 16) :
    push a s = some { s with stack := s.stack.set s.sp.val a, sp := ⟨s.sp.val + 1, by omega⟩ } := by
  unfold push
  rw [dif_pos h]
  rfl

theorem pop_empty (s : State) (h : s.sp.val = 0) : pop s = none := by
  unfold pop
  rw [dif_neg (by omega)]

theorem pop_eq (s : State) (h : 0 < s.sp.val) :
    pop s = some (s.stack[s.sp.val - 1]'(by have := s.sp.isLt; omega),
      { s with sp := ⟨s.sp.val - 1, by have := s.sp.isLt; omega⟩ }) := by
  unfold pop
  rw [dif_pos h]
  rfl

/-! ### Operands -/

theorem lowNibble_val (b : Byte) : (lowNibble b).val = b.toNat % 16 := by
  simp [lowNibble, BitVec.extractLsb']

/-- The low nibble, unless the policy is `fault` and the value is above 0xF. -/
theorem nibbleOperand_eq (c : Params) (b : Byte) :
    nibbleOperand c b = if b.toNat ≤ 15 ∨ c.highNibble = .mask then some (lowNibble b) else none := by
  unfold nibbleOperand
  split
  · simp_all
  · cases h : c.highNibble <;> simp_all

/-- A glyph lies where the font does. -/
theorem glyphAddr_toNat (c : Params) (d : Fin 16) (h : c.wf = true) :
    (glyphAddr c d).toNat = c.fontBase.toNat + 5 * d.val := by
  have hd := d.isLt
  simp only [Params.wf, decide_eq_true_eq, Config.fontSize, Config.programBase] at h
  simp only [glyphAddr, BitVec.toNat_ofNat, Config.glyphBytes]
  omega

@[simp] theorem firstRegs_length (s : State) (x : Reg) : (firstRegs s x).length = x.val + 1 := by
  have := x.isLt
  simp [firstRegs]

theorem firstRegs_getElem (s : State) (x : Reg) (k : Nat) (h : k < (firstRegs s x).length) :
    (firstRegs s x)[k] = getV s ⟨k, by rw [firstRegs_length] at h; have := x.isLt; omega⟩ := by
  simp [firstRegs, getV]

@[simp] theorem decimalDigits_length (b : Byte) : (decimalDigits b).length = 3 := rfl

/-- The registers from `k` on get the bytes, every other keeps its value. -/
theorem loadFrom_getElem (bytes : List Byte) (k : Nat) (v : Vector Byte 16) (j : Nat) (hj : j < 16) :
    (loadFrom k bytes v)[j] = if h : k ≤ j ∧ j < k + bytes.length then bytes[j - k]'(by omega) else v[j] := by
  induction bytes generalizing k v with
  | nil => simp only [loadFrom, List.length_nil]; rw [dif_neg (by omega)]
  | cons b rest ih =>
    rw [loadFrom, ih]
    by_cases h1 : k + 1 ≤ j ∧ j < k + 1 + rest.length
    · rw [dif_pos h1, dif_pos (by simp only [List.length_cons]; omega), List.getElem_cons, dif_neg (by omega)]
      congr 1
    · rw [dif_neg h1, Vector.getElem_setIfInBounds hj]
      by_cases hk : k = j
      · subst hk; simp
      · rw [if_neg hk, dif_neg (by simp only [List.length_cons]; omega)]

/-! ### Flags -/

@[simp] theorem flagByte_true : flagByte true = 1 := rfl
@[simp] theorem flagByte_false : flagByte false = 0 := rfl

theorem carryFlag_eq (a b : Byte) : carryFlag a b = if 256 ≤ a.toNat + b.toNat then 1 else 0 := by
  simp [carryFlag, flagByte]

theorem notBorrowFlag_eq (a b : Byte) : notBorrowFlag a b = if b.toNat ≤ a.toNat then 1 else 0 := by
  simp [notBorrowFlag, flagByte]

theorem shiftedOutRight_toNat (a : Byte) : (shiftedOutRight a).toNat = a.toNat % 2 := by
  simp [shiftedOutRight, Nat.and_one_is_mod]

theorem shiftedOutLeft_toNat (a : Byte) : (shiftedOutLeft a).toNat = a.toNat / 128 := by
  have := a.isLt
  simp only [shiftedOutLeft, BitVec.toNat_and, BitVec.toNat_ushiftRight, Nat.shiftRight_eq_div_pow]
  rw [show BitVec.toNat (1 : Byte) = 1 from rfl, Nat.and_one_is_mod]
  omega

end Sys2Proof.Machine
end

