-- ==== Sys2Proof/Laws/Display.lean ====
section
/-! SUPPORT. The framebuffer: read after write, the toggle, the cells a sprite covers, the cells that are on. -/

namespace Sys2Proof.Machine

theorem getPixel_setPixel (p q : Pixel) (b : Bool) (f : Framebuffer) :
    getPixel (setPixel p b f) q = if p = q then b else getPixel f q := by
  obtain ⟨px, py⟩ := p
  obtain ⟨qx, qy⟩ := q
  simp only [getPixel, setPixel, Vector.getElem_set, Prod.mk.injEq, Fin.ext_iff]
  by_cases hy : py.val = qy.val
  · by_cases hx : px.val = qx.val
    · simp [hx, hy]
    · simp [hx, hy]
  · simp [hy]

/-- Two framebuffers with the same cells are equal. -/
theorem framebuffer_ext {f g : Framebuffer} (h : ∀ p, getPixel f p = getPixel g p) : f = g := by
  apply Vector.ext
  intro y hy
  apply Vector.ext
  intro x hx
  exact h (⟨x, hx⟩, ⟨y, hy⟩)

@[simp] theorem getPixel_blankScreen (p : Pixel) : getPixel blankScreen p = false := by
  simp [getPixel, blankScreen]

/-- A toggle changes its own cell and no other (46_display.md R222). -/
theorem getPixel_toggle (q : Nat × Nat) (f : Framebuffer) (p : Pixel) :
    getPixel (toggle q f).1 p = if wrapPixel q = p then !getPixel f p else getPixel f p := by
  simp only [toggle, getPixel_setPixel]
  by_cases h : wrapPixel q = p
  · simp [h]
  · simp [h]

/-- Toggles at pixels that fall on different cells: each cell they name changes, and the flag says whether one was on. -/
theorem toggleAll_spec (qs : List (Nat × Nat)) (f : Framebuffer) (h : (qs.map wrapPixel).Nodup) :
    (∀ p, getPixel (toggleAll qs f).1 p = if p ∈ qs.map wrapPixel then !getPixel f p else getPixel f p) ∧
    (toggleAll qs f).2 = (qs.map wrapPixel).any (getPixel f) := by
  induction qs generalizing f with
  | nil => simp [toggleAll]
  | cons q rest ih =>
    simp only [List.map_cons, List.nodup_cons] at h
    obtain ⟨ih1, ih2⟩ := ih (toggle q f).1 h.2
    constructor
    · intro p
      simp only [toggleAll, ih1, getPixel_toggle, List.map_cons, List.mem_cons]
      by_cases hp : wrapPixel q = p
      · subst hp; simp [h.1]
      · have hp' : p ≠ wrapPixel q := fun e => hp e.symm
        simp only [hp, if_false, hp', false_or]
    · simp only [toggleAll, ih2, List.map_cons, List.any_cons]
      congr 1
      rw [Bool.eq_iff_iff, List.any_eq_true, List.any_eq_true]
      constructor <;> rintro ⟨p, hp, hv⟩ <;> refine ⟨p, hp, ?_⟩ <;>
        · have hne : wrapPixel q ≠ p := fun e => h.1 (e ▸ hp)
          simpa [getPixel_toggle, hne] using hv

/-- The pixels of one sprite row. -/
theorem mem_rowPixels (x0 y : Nat) (b : Byte) (q : Nat × Nat) :
    q ∈ rowPixels x0 y b ↔ ∃ c, c < 8 ∧ b.getLsbD (7 - c) = true ∧ q = (x0 + c, y) := by
  simp only [rowPixels, List.mem_map, List.mem_filter, List.mem_range]
  constructor
  · rintro ⟨c, ⟨h1, h2⟩, rfl⟩; exact ⟨c, h1, h2, rfl⟩
  · rintro ⟨c, h1, h2, rfl⟩; exact ⟨c, ⟨h1, h2⟩, rfl⟩

/-- The pixels of a sprite (46_display.md R224). -/
theorem mem_spritePixels (rows : List Byte) (x0 y0 : Nat) (q : Nat × Nat) :
    q ∈ spritePixels x0 y0 rows ↔
      ∃ r c, ∃ h : r < rows.length, c < 8 ∧ rows[r].getLsbD (7 - c) = true ∧ q = (x0 + c, y0 + r) := by
  induction rows generalizing y0 with
  | nil => simp [spritePixels]
  | cons b rest ih =>
    simp only [spritePixels, List.mem_append, mem_rowPixels, ih]
    constructor
    · rintro (⟨c, h1, h2, rfl⟩ | ⟨r, c, h, h1, h2, rfl⟩)
      · exact ⟨0, c, by simp, h1, by simpa using h2, rfl⟩
      · exact ⟨r + 1, c, by simpa using h, h1, by simpa using h2, by simp; omega⟩
    · rintro ⟨r, c, h, h1, h2, rfl⟩
      cases r with
      | zero => exact .inl ⟨c, h1, by simpa using h2, rfl⟩
      | succ r => exact .inr ⟨r, c, by simpa using h, h1, by simpa using h2, by simp; omega⟩

/-- The columns of one sprite row are distinct modulo 64. -/
theorem rowPixels_nodup (x0 y : Nat) (b : Byte) : ((rowPixels x0 y b).map wrapPixel).Nodup := by
  rw [rowPixels, List.map_map]
  refine List.Nodup.map_on ?_ (List.Nodup.filter _ List.nodup_range)
  intro c hc d hd heq
  simp only [List.mem_filter, List.mem_range] at hc hd
  simp only [Function.comp_apply, wrapPixel, Prod.mk.injEq, Fin.mk.injEq, and_true] at heq
  omega

/-- No cell is toggled twice by one sprite of at most 32 rows (46_display.md R224). -/
theorem spritePixels_nodup (rows : List Byte) (x0 y0 : Nat) (h : rows.length ≤ 32) :
    ((spritePixels x0 y0 rows).map wrapPixel).Nodup := by
  induction rows generalizing y0 with
  | nil => simp [spritePixels]
  | cons b rest ih =>
    simp only [List.length_cons] at h
    rw [spritePixels, List.map_append]
    refine List.Nodup.append (rowPixels_nodup x0 y0 b) (ih (y0 + 1) (by omega)) ?_
    intro p h1 h2
    obtain ⟨q1, hq1, rfl⟩ := List.mem_map.1 h1
    obtain ⟨q2, hq2, heq⟩ := List.mem_map.1 h2
    obtain ⟨c, -, -, rfl⟩ := (mem_rowPixels _ _ _ _).1 hq1
    obtain ⟨r, d, hr, -, -, rfl⟩ := (mem_spritePixels _ _ _ _).1 hq2
    simp only [wrapPixel, Prod.mk.injEq, Fin.mk.injEq] at heq
    omega

/-! ### The cells that are on -/

theorem mem_litInRow (y : Fin 32) (cells : List Bool) (c : Nat) (p : Pixel) :
    p ∈ litInRow y cells c ↔
      p.2 = y ∧ c ≤ p.1.val ∧ ∃ h : p.1.val - c < cells.length, cells[p.1.val - c] = true := by
  induction cells generalizing c with
  | nil => simp [litInRow]
  | cons b rest ih =>
    obtain ⟨px, py⟩ := p
    have hpx := px.isLt
    have key : (c + 1 ≤ px.val → px.val - c = px.val - (c + 1) + 1) := by omega
    simp only [litInRow]
    split
    · rename_i h
      simp only [List.mem_cons, ih, Prod.mk.injEq, Fin.ext_iff]
      constructor
      · rintro (⟨h1, h2⟩ | ⟨h1, h2, h3, h4⟩)
        · refine ⟨h2, by omega, by simp; omega, ?_⟩
          simp [h1, h.1]
        · refine ⟨h1, by omega, by simp; omega, ?_⟩
          simp only [key h2, List.getElem_cons_succ, h4]
      · rintro ⟨h1, h2, h3, h4⟩
        by_cases hc : px.val = c
        · exact .inl ⟨hc, h1⟩
        · refine .inr ⟨h1, by omega, by simp at h3; omega, ?_⟩
          simpa only [key (by omega), List.getElem_cons_succ] using h4
    · rename_i h
      simp only [ih, Fin.ext_iff]
      constructor
      · rintro ⟨h1, h2, h3, h4⟩
        refine ⟨h1, by omega, by simp; omega, ?_⟩
        simp only [key h2, List.getElem_cons_succ, h4]
      · rintro ⟨h1, h2, h3, h4⟩
        by_cases hc : px.val = c
        · exfalso
          simp only [hc, Nat.sub_self, List.getElem_cons_zero] at h4
          exact h ⟨h4, by omega⟩
        · refine ⟨h1, by omega, by simp at h3; omega, ?_⟩
          simpa only [key (by omega), List.getElem_cons_succ] using h4

theorem litInRow_nodup (y : Fin 32) (cells : List Bool) (c : Nat) : (litInRow y cells c).Nodup := by
  induction cells generalizing c with
  | nil => simp [litInRow]
  | cons b rest ih =>
    simp only [litInRow]
    split
    · refine List.nodup_cons.2 ⟨?_, ih _⟩
      intro h
      have := ((mem_litInRow _ _ _ _).1 h).2.1
      simp at this
    · exact ih _

theorem mem_litInRows (rows : List (Vector Bool 64)) (r : Nat) (hr : r + rows.length ≤ 32) (p : Pixel) :
    p ∈ litInRows rows r ↔
      r ≤ p.2.val ∧ ∃ h : p.2.val - r < rows.length, rows[p.2.val - r][p.1.val] = true := by
  induction rows generalizing r with
  | nil => simp [litInRows]
  | cons row rest ih =>
    obtain ⟨px, py⟩ := p
    simp only [List.length_cons] at hr
    have key : (r + 1 ≤ py.val → py.val - r = py.val - (r + 1) + 1) := by omega
    have hpx := px.isLt
    simp only [litInRows]
    rw [dif_pos (show r < 32 by omega)]
    simp only [List.mem_append, mem_litInRow, ih (r + 1) (by omega), Fin.ext_iff]
    constructor
    · rintro (⟨h1, -, h3, h4⟩ | ⟨h2, h3, h4⟩)
      · refine ⟨by omega, by simp; omega, ?_⟩
        simpa [h1] using h4
      · refine ⟨by omega, by simp; omega, ?_⟩
        simp only [key h2, List.getElem_cons_succ, h4]
    · rintro ⟨h2, h3, h4⟩
      by_cases hc : py.val = r
      · refine .inl ⟨hc, by omega, by simp, ?_⟩
        simpa [hc] using h4
      · refine .inr ⟨by omega, by simp at h3; omega, ?_⟩
        simpa only [key (by omega), List.getElem_cons_succ] using h4

theorem litInRows_nodup (rows : List (Vector Bool 64)) (r : Nat) (hr : r + rows.length ≤ 32) :
    (litInRows rows r).Nodup := by
  induction rows generalizing r with
  | nil => simp [litInRows]
  | cons row rest ih =>
    simp only [List.length_cons] at hr
    simp only [litInRows]
    rw [dif_pos (show r < 32 by omega)]
    refine List.Nodup.append (litInRow_nodup _ _ _) (ih _ (by omega)) ?_
    intro p h1 h2
    have e1 := ((mem_litInRow _ _ _ _).1 h1).1
    have e2 := ((mem_litInRows rest (r + 1) (by omega) p).1 h2).1
    rw [e1] at e2
    simp at e2

/-- The listed cells are the ones that are on (46_display.md R220). -/
theorem mem_litCells (f : Framebuffer) (p : Pixel) : p ∈ litCells f ↔ getPixel f p = true := by
  rw [litCells, mem_litInRows _ _ (by simp)]
  simp [getPixel]

theorem litCells_nodup (f : Framebuffer) : (litCells f).Nodup :=
  litInRows_nodup _ _ (by simp)

end Sys2Proof.Machine
end

