-- ==== Sys2Proof/Laws/Exec.lean ====
section
/-! SUPPORT. What the meanings answer: one lemma per way an instruction can end, and how every instruction ends. -/

namespace Sys2Proof.Machine

/-! ### Control transfer -/

theorem execRet_underflow {s : State} (h : s.sp.val = 0) : execRet s = raise .stackUnderflow s := by
  rw [execRet, pop_empty s h]

theorem execRet_eq {s : State} (h : 0 < s.sp.val) :
    execRet s = .next { s with
      sp := ⟨s.sp.val - 1, by have := s.sp.isLt; omega⟩,
      pc := s.stack[s.sp.val - 1]'(by have := s.sp.isLt; omega), result := .ok .none } := by
  rw [execRet, pop_eq s h]
  rfl

theorem execCall_overflow {s : State} (nnn : BitVec 12) (h : s.sp.val = 16) :
    execCall nnn s = raise .stackOverflow s := by
  rw [execCall, push_full _ s h]

theorem execCall_eq {s : State} (nnn : BitVec 12) (h : s.sp.val < 16) :
    execCall nnn s = .next { s with
      stack := s.stack.set s.sp.val (s.pc + 2), sp := ⟨s.sp.val + 1, by omega⟩,
      pc := zextAddr nnn, result := .ok .none } := by
  rw [execCall, push_eq _ s h]
  rfl

theorem zextAddr_toNat (nnn : BitVec 12) : (zextAddr nnn).toNat = nnn.toNat := by
  have := nnn.isLt
  simp only [zextAddr, BitVec.toNat_setWidth]
  omega

theorem zextByte_toNat (b : Byte) : (zextByte b).toNat = b.toNat := by
  have := b.isLt
  simp only [zextByte, BitVec.toNat_setWidth]
  omega

/-! ### The two writes of a flag-setting instruction (43_alu.md R159) -/

@[simp] theorem setResultThenFlag_i (x : Reg) (r flag : Byte) (s : State) :
    (setResultThenFlag x r flag s).i = s.i := rfl
@[simp] theorem setResultThenFlag_pc (x : Reg) (r flag : Byte) (s : State) :
    (setResultThenFlag x r flag s).pc = s.pc := rfl
@[simp] theorem setResultThenFlag_sp (x : Reg) (r flag : Byte) (s : State) :
    (setResultThenFlag x r flag s).sp = s.sp := rfl
@[simp] theorem setResultThenFlag_stack (x : Reg) (r flag : Byte) (s : State) :
    (setResultThenFlag x r flag s).stack = s.stack := rfl
@[simp] theorem setResultThenFlag_dt (x : Reg) (r flag : Byte) (s : State) :
    (setResultThenFlag x r flag s).dt = s.dt := rfl
@[simp] theorem setResultThenFlag_st (x : Reg) (r flag : Byte) (s : State) :
    (setResultThenFlag x r flag s).st = s.st := rfl
@[simp] theorem setResultThenFlag_key (x : Reg) (r flag : Byte) (s : State) :
    (setResultThenFlag x r flag s).key = s.key := rfl
@[simp] theorem setResultThenFlag_fb (x : Reg) (r flag : Byte) (s : State) :
    (setResultThenFlag x r flag s).fb = s.fb := rfl
@[simp] theorem setResultThenFlag_mem (x : Reg) (r flag : Byte) (s : State) :
    (setResultThenFlag x r flag s).mem = s.mem := rfl
@[simp] theorem setResultThenFlag_fault (x : Reg) (r flag : Byte) (s : State) :
    (setResultThenFlag x r flag s).fault = s.fault := rfl
@[simp] theorem setResultThenFlag_cfg (x : Reg) (r flag : Byte) (s : State) :
    (setResultThenFlag x r flag s).cfg = s.cfg := rfl
@[simp] theorem setResultThenFlag_draws (x : Reg) (r flag : Byte) (s : State) :
    (setResultThenFlag x r flag s).draws = s.draws := rfl
@[simp] theorem setResultThenFlag_result (x : Reg) (r flag : Byte) (s : State) :
    (setResultThenFlag x r flag s).result = s.result := rfl
@[simp] theorem readByte_setResultThenFlag (x : Reg) (r flag : Byte) (s : State) (a : Nat) :
    readByte (setResultThenFlag x r flag s) a = readByte s a := rfl
@[simp] theorem setFlagThenResult_i (x : Reg) (r flag : Byte) (s : State) :
    (setFlagThenResult x r flag s).i = s.i := rfl
@[simp] theorem setFlagThenResult_pc (x : Reg) (r flag : Byte) (s : State) :
    (setFlagThenResult x r flag s).pc = s.pc := rfl
@[simp] theorem setFlagThenResult_sp (x : Reg) (r flag : Byte) (s : State) :
    (setFlagThenResult x r flag s).sp = s.sp := rfl
@[simp] theorem setFlagThenResult_stack (x : Reg) (r flag : Byte) (s : State) :
    (setFlagThenResult x r flag s).stack = s.stack := rfl
@[simp] theorem setFlagThenResult_dt (x : Reg) (r flag : Byte) (s : State) :
    (setFlagThenResult x r flag s).dt = s.dt := rfl
@[simp] theorem setFlagThenResult_st (x : Reg) (r flag : Byte) (s : State) :
    (setFlagThenResult x r flag s).st = s.st := rfl
@[simp] theorem setFlagThenResult_key (x : Reg) (r flag : Byte) (s : State) :
    (setFlagThenResult x r flag s).key = s.key := rfl
@[simp] theorem setFlagThenResult_fb (x : Reg) (r flag : Byte) (s : State) :
    (setFlagThenResult x r flag s).fb = s.fb := rfl
@[simp] theorem setFlagThenResult_mem (x : Reg) (r flag : Byte) (s : State) :
    (setFlagThenResult x r flag s).mem = s.mem := rfl
@[simp] theorem setFlagThenResult_fault (x : Reg) (r flag : Byte) (s : State) :
    (setFlagThenResult x r flag s).fault = s.fault := rfl
@[simp] theorem setFlagThenResult_cfg (x : Reg) (r flag : Byte) (s : State) :
    (setFlagThenResult x r flag s).cfg = s.cfg := rfl
@[simp] theorem setFlagThenResult_draws (x : Reg) (r flag : Byte) (s : State) :
    (setFlagThenResult x r flag s).draws = s.draws := rfl
@[simp] theorem setFlagThenResult_result (x : Reg) (r flag : Byte) (s : State) :
    (setFlagThenResult x r flag s).result = s.result := rfl
@[simp] theorem readByte_setFlagThenResult (x : Reg) (r flag : Byte) (s : State) (a : Nat) :
    readByte (setFlagThenResult x r flag s) a = readByte s a := rfl

/-- The flag wins where the destination is VF. -/
theorem getV_setResultThenFlag (x r : Reg) (v flag : Byte) (s : State) :
    getV (setResultThenFlag x v flag s) r = if r = vf then flag else if r = x then v else getV s r := by
  by_cases h : r = vf
  · subst h; rw [if_pos rfl, setResultThenFlag, getV_setV_same]
  · rw [if_neg h, setResultThenFlag, getV_setV_other (fun e => h e.symm)]
    by_cases hx : r = x
    · subst hx; rw [if_pos rfl, getV_setV_same]
    · rw [if_neg hx, getV_setV_other (fun e => hx e.symm)]

/-- The result wins where the destination is VF. -/
theorem getV_setFlagThenResult (x r : Reg) (v flag : Byte) (s : State) :
    getV (setFlagThenResult x v flag s) r = if r = x then v else if r = vf then flag else getV s r := by
  by_cases h : r = x
  · subst h; rw [if_pos rfl, setFlagThenResult, getV_setV_same]
  · rw [if_neg h, setFlagThenResult, getV_setV_other (fun e => h e.symm)]
    by_cases hx : r = vf
    · subst hx; rw [if_pos rfl, getV_setV_same]
    · rw [if_neg hx, getV_setV_other (fun e => hx e.symm)]

/-! ### The nibble operand -/

theorem execSkp_eq {s : State} {x : Reg} (h : (getV s x).toNat ≤ 15 ∨ s.cfg.highNibble = .mask) :
    execSkp x s = skipIf s.key[(lowNibble (getV s x)).val] s := by
  rw [execSkp, nibbleOperand_eq, if_pos h]

theorem execSknp_eq {s : State} {x : Reg} (h : (getV s x).toNat ≤ 15 ∨ s.cfg.highNibble = .mask) :
    execSknp x s = skipIf (!s.key[(lowNibble (getV s x)).val]) s := by
  rw [execSknp, nibbleOperand_eq, if_pos h]

theorem execLdF_eq {s : State} {x : Reg} (h : (getV s x).toNat ≤ 15 ∨ s.cfg.highNibble = .mask) :
    execLdF x s = advance (setI (glyphAddr s.cfg (lowNibble (getV s x))) s) := by
  rw [execLdF, nibbleOperand_eq, if_pos h]

theorem execSkp_fault {s : State} {x : Reg} (h : ¬ ((getV s x).toNat ≤ 15 ∨ s.cfg.highNibble = .mask)) :
    execSkp x s = raise (.operandOutOfRange (encode (.skp x))) s := by
  rw [execSkp, nibbleOperand_eq, if_neg h]

theorem execSknp_fault {s : State} {x : Reg} (h : ¬ ((getV s x).toNat ≤ 15 ∨ s.cfg.highNibble = .mask)) :
    execSknp x s = raise (.operandOutOfRange (encode (.sknp x))) s := by
  rw [execSknp, nibbleOperand_eq, if_neg h]

theorem execLdF_fault {s : State} {x : Reg} (h : ¬ ((getV s x).toNat ≤ 15 ∨ s.cfg.highNibble = .mask)) :
    execLdF x s = raise (.operandOutOfRange (encode (.ldF x))) s := by
  rw [execLdF, nibbleOperand_eq, if_neg h]

/-! ### Memory access -/

theorem execLdB_eq {s : State} (x : Reg) (h : s.i.toNat + 3 ≤ Config.memSize) :
    execLdB x s = advance (writeBytes s.i.toNat (decimalDigits (getV s x)) s) := by
  rw [execLdB, (checkRange_eq_none _ _).2 (.inr h)]

theorem execStoreRegs_eq {s : State} (x : Reg) (h : s.i.toNat + (x.val + 1) ≤ Config.memSize) :
    execStoreRegs x s = advance (writeBytes s.i.toNat (firstRegs s x) s) := by
  rw [execStoreRegs, (checkRange_eq_none _ _).2 (.inr h)]

theorem execLoadRegs_eq {s : State} (x : Reg) (h : s.i.toNat + (x.val + 1) ≤ Config.memSize) :
    execLoadRegs x s = advance (setVs (loadFrom 0 (readBytes s s.i.toNat (x.val + 1)) s.v) s) := by
  rw [execLoadRegs, (checkRange_eq_none _ _).2 (.inr h)]

/-- The state a completed DXYN leaves. -/
def drawn (x y : Reg) (n : Fin 16) (s : State) : State :=
  setPc (nextPc s) (setV vf (collisionFlag (toggleAll (drawnPixels x y n s) s.fb).2)
    (setFb (toggleAll (drawnPixels x y n s) s.fb).1 s))

theorem execDrw_eq {s : State} (x y : Reg) (n : Fin 16) (h : n.val = 0 ∨ s.i.toNat + n.val ≤ Config.memSize) :
    execDrw x y n s =
      complete (.toggled ((drawnPixels x y n s).map wrapPixel) (toggleAll (drawnPixels x y n s) s.fb).2)
        (drawn x y n s) := by
  rw [execDrw, (checkRange_eq_none _ _).2 h]
  rfl

/-- The cells of one DXYN are distinct. -/
theorem drawnPixels_nodup (x y : Reg) (n : Fin 16) (s : State) : ((drawnPixels x y n s).map wrapPixel).Nodup :=
  spritePixels_nodup _ _ _ (by have := n.isLt; simp; omega)

/-- The pixels of one DXYN, by the bytes at I. -/
theorem mem_drawnPixels (x y : Reg) (n : Fin 16) (s : State) (q : Nat × Nat) :
    q ∈ drawnPixels x y n s ↔ ∃ r c, r < n.val ∧ c < 8 ∧ (readByte s (s.i.toNat + r)).getLsbD (7 - c) = true ∧
      q = ((getV s x).toNat + c, (getV s y).toNat + r) := by
  rw [drawnPixels, mem_spritePixels]
  constructor
  · rintro ⟨r, c, h, h1, h2, rfl⟩
    rw [readBytes_getElem] at h2
    exact ⟨r, c, by simpa using h, h1, h2, rfl⟩
  · rintro ⟨r, c, h, h1, h2, rfl⟩
    exact ⟨r, c, by simpa using h, h1, by rw [readBytes_getElem]; exact h2, rfl⟩

/-! ### How every instruction ends -/

/-- An instruction raises one fault of its own, or it completes with a state whose latch, keypad and parameters are the old
ones. -/
theorem exec_ends (i : Instr) (s : State) :
    (∃ kind, exec i s = raise kind s) ∨
    (∃ e u, exec i s = complete e u ∧ u.fault = s.fault ∧ u.key = s.key ∧ u.cfg = s.cfg) := by
  cases i <;> simp only [exec]
  case ret =>
    by_cases h : s.sp.val = 0
    · exact .inl ⟨_, execRet_underflow h⟩
    · rw [execRet, pop_eq s (by omega)]
      exact .inr ⟨_, _, rfl, rfl, rfl, rfl⟩
  case call nnn =>
    by_cases h : s.sp.val = 16
    · exact .inl ⟨_, execCall_overflow nnn h⟩
    · rw [execCall, push_eq _ s (by have := s.sp.isLt; omega)]
      exact .inr ⟨_, _, rfl, rfl, rfl, rfl⟩
  case skp x =>
    by_cases h : (getV s x).toNat ≤ 15 ∨ s.cfg.highNibble = .mask
    · exact .inr ⟨_, _, execSkp_eq h, rfl, rfl, rfl⟩
    · exact .inl ⟨_, execSkp_fault h⟩
  case sknp x =>
    by_cases h : (getV s x).toNat ≤ 15 ∨ s.cfg.highNibble = .mask
    · exact .inr ⟨_, _, execSknp_eq h, rfl, rfl, rfl⟩
    · exact .inl ⟨_, execSknp_fault h⟩
  case ldF x =>
    by_cases h : (getV s x).toNat ≤ 15 ∨ s.cfg.highNibble = .mask
    · exact .inr ⟨_, _, execLdF_eq h, rfl, rfl, rfl⟩
    · exact .inl ⟨_, execLdF_fault h⟩
  case ldB x =>
    unfold execLdB
    split
    · exact .inl ⟨_, rfl⟩
    · exact .inr ⟨_, _, rfl, rfl, rfl, rfl⟩
  case storeRegs x =>
    unfold execStoreRegs
    split
    · exact .inl ⟨_, rfl⟩
    · exact .inr ⟨_, _, rfl, rfl, rfl, rfl⟩
  case loadRegs x =>
    unfold execLoadRegs
    split
    · exact .inl ⟨_, rfl⟩
    · exact .inr ⟨_, _, rfl, rfl, rfl, rfl⟩
  case drw x y n =>
    unfold execDrw
    split
    · exact .inl ⟨_, rfl⟩
    · exact .inr ⟨_, _, rfl, rfl, rfl, rfl⟩
  all_goals exact .inr ⟨_, _, rfl, rfl, rfl, rfl⟩

/-- Every instruction answers a next state. -/
theorem exec_answers (i : Instr) (s : State) : ∃ t, exec i s = .next t := by
  rcases exec_ends i s with ⟨_, h⟩ | ⟨_, _, h, _⟩
  · exact ⟨_, h⟩
  · exact ⟨_, h⟩

end Sys2Proof.Machine
end

