-- ==== Sys2Proof/Laws/Step.lean ====
section
/-! SUPPORT. What a step can do, said once. -/

namespace Sys2Proof.Machine

theorem step_latched {s : State} {kind : Fault} {p : Addr} (h : s.fault = some (kind, p)) : step s = .fault kind := by
  rw [step, h]

theorem step_fetch_fault {s : State} {kind : Fault} (h : s.fault = none) (hf : checkFetch s = some kind) :
    step s = raise kind s := by
  rw [step, h]
  simp only [hf]

theorem step_unknown {s : State} (h : s.fault = none) (hf : checkFetch s = none)
    (hd : decodeWord (fetchWord s) = none) : step s = raise (.unknownOpcode (fetchWord s)) s := by
  rw [step, h]
  simp only [hf, hd]

theorem step_exec {s : State} {i : Instr} (h : s.fault = none) (hf : checkFetch s = none)
    (hd : decodeWord (fetchWord s) = some i) : step s = exec i s := by
  rw [step, h]
  simp only [hf, hd]

/-- A step that answers a next state is a live core's: it raises a fetch fault, raises an unknown opcode, or runs the fetched
instruction. -/
theorem step_cases {s t : State} (h : step s = .next t) :
    s.fault = none ∧
    ((∃ kind, checkFetch s = some kind ∧ raise kind s = .next t) ∨
     (checkFetch s = none ∧ decodeWord (fetchWord s) = none ∧ raise (.unknownOpcode (fetchWord s)) s = .next t) ∨
     (checkFetch s = none ∧ ∃ i, decodeWord (fetchWord s) = some i ∧ exec i s = .next t)) := by
  cases hl : s.fault with
  | some kp =>
    obtain ⟨k, p⟩ := kp
    rw [step_latched hl] at h
    cases h
  | none =>
    refine ⟨rfl, ?_⟩
    cases hf : checkFetch s with
    | some kind => exact .inl ⟨kind, rfl, (step_fetch_fault hl hf).symm.trans h⟩
    | none =>
      cases hd : decodeWord (fetchWord s) with
      | none => exact .inr (.inl ⟨rfl, rfl, (step_unknown hl hf hd).symm.trans h⟩)
      | some i => exact .inr (.inr ⟨rfl, i, rfl, (step_exec hl hf hd).symm.trans h⟩)

/-- The word at PC through the bytes there. -/
theorem decode_fetched (s : State) :
    decode [readByte s s.pc.toNat, readByte s (s.pc.toNat + 1)] =
      match decodeWord (fetchWord s) with
      | some i => .ok (i, [])
      | none => .error (.unknownOpcode (fetchWord s)) := rfl

/-- A word placed at a PC that can be fetched from is the word fetched. -/
theorem fetchWord_placeWord (w : Word) (s : State) (h : s.pc.toNat + 1 < Config.memSize) :
    fetchWord (placeWord w s) = w := by
  have hl : s.pc.toNat + (bytesOfWord w).length ≤ Config.memSize := by simp only [bytesOfWord_length]; omega
  rw [fetchWord, placeWord, readByte_writeBytes _ _ _ _ hl, readByte_writeBytes _ _ _ _ hl]
  rw [dif_pos (by simp), dif_pos (by simp)]
  simp only [writeBytes_pc, Nat.sub_self, Nat.add_sub_cancel_left, bytesOfWord, List.getElem_cons_zero,
    List.getElem_cons_succ]
  exact wordOfBytes_bytes w

end Sys2Proof.Machine
end

