-- ==== Sys2Proof/Laws/Host.lean ====
section
/-! SUPPORT. The calls of the host, and the terms of the statements. -/

namespace Sys2Proof.Machine

theorem countDown_toNat (b : Byte) : (countDown b).toNat = b.toNat - 1 := by
  unfold countDown
  split
  · rename_i h; subst h; rfl
  · rename_i h
    have hb := b.isLt
    have h0 : b.toNat ≠ 0 := fun e => h (BitVec.eq_of_toNat_eq e)
    rw [BitVec.toNat_sub]
    have : BitVec.toNat (1 : Byte) = 1 := rfl
    omega

theorem tick_eq (s : State) : tick s = { s with dt := countDown s.dt, st := countDown s.st } := rfl

theorem create_fits (c : Params) (d : Nat) {rom : List Byte} (h : Rom.wf rom = true) :
    create c d rom =
      .next { State.reset with cfg := c, draws := d, mem := Memory.writeAll c [] Config.programBase rom } := by
  rw [create, if_pos h]

theorem create_too_large (c : Params) (d : Nat) {rom : List Byte} (h : ¬ Rom.wf rom = true) :
    create c d rom = .refused (.romTooLarge rom.length) := by
  rw [create, if_neg h]

/-- What every call of the host keeps, every sequence of calls keeps. -/
theorem runCalls_keeps {p : State → Prop} (h : ∀ c s, p s → p (hostCall c s).1) (cs : List HostCall) {s : State} (hs : p s) :
    p (runCalls cs s) := by
  induction cs generalizing s with
  | nil => exact hs
  | cons c rest ih => exact ih (h c s hs)

/-- The bytes a store leaves, through the terms of the statements. -/
theorem readByte_writeBytes_eq (a b : Nat) (bytes : List Byte) (s : State) (h : a + bytes.length ≤ Config.memSize) :
    readByte (writeBytes a bytes s) b = byteAfter s a bytes b :=
  readByte_writeBytes a b bytes s h

/-- A ROM fits when it has at most 3584 bytes (70_reset_and_hazards.md R292). -/
theorem Rom.wf_iff (rom : List Byte) : Rom.wf rom = true ↔ rom.length ≤ 3584 := by
  simp only [Rom.wf, decide_eq_true_eq, Config.programBase, Config.memSize]
  omega

end Sys2Proof.Machine
end

