-- ==== Sys2Proof/Laws/PerInstr.lean ====
section
/-! SUPPORT. One lemma per instruction: its word matches a row of the table, and that row builds it back. Together with the
rows' not overlapping this is what the decoder needs. -/

namespace Sys2Proof.Laws.RowMatch

/-- The instruction's word matches a row whose `build` gives the instruction from the word's own fields. -/
def Statement (i : Instr) : Prop :=
  ∃ r ∈ opcodeTable, r.hits (encode i) = true ∧ r.build (fieldsOf (encode i)) = i

theorem cls : Statement .cls :=
  ⟨⟨0x00E0, 0xFFFF, fun _ => .cls⟩, by simp [opcodeTable, rows0], by decide, rfl⟩

theorem ret : Statement .ret :=
  ⟨⟨0x00EE, 0xFFFF, fun _ => .ret⟩, by simp [opcodeTable, rows0], by decide, rfl⟩

theorem jp (nnn : BitVec 12) : Statement (.jp nnn) :=
  ⟨⟨0x1000, 0xF000, fun f => .jp f.nnn⟩, by simp [opcodeTable, rows0],
    by simp only [Row.hits, encode, wordA_mask]; rfl, by simp [encode]⟩

theorem call (nnn : BitVec 12) : Statement (.call nnn) :=
  ⟨⟨0x2000, 0xF000, fun f => .call f.nnn⟩, by simp [opcodeTable, rows0],
    by simp only [Row.hits, encode, wordA_mask]; rfl, by simp [encode]⟩

theorem seImm (x : Reg) (nn : Byte) : Statement (.seImm x nn) :=
  ⟨⟨0x3000, 0xF000, fun f => .seImm f.x f.nn⟩, by simp [opcodeTable, rows0],
    by simp only [Row.hits, encode, wordXNN_mask]; rfl, by simp [encode]⟩

theorem sneImm (x : Reg) (nn : Byte) : Statement (.sneImm x nn) :=
  ⟨⟨0x4000, 0xF000, fun f => .sneImm f.x f.nn⟩, by simp [opcodeTable, rows0],
    by simp only [Row.hits, encode, wordXNN_mask]; rfl, by simp [encode]⟩

theorem seReg (x y : Reg) : Statement (.seReg x y) :=
  ⟨⟨0x5000, 0xF00F, fun f => .seReg f.x f.y⟩, by simp [opcodeTable, rows0],
    by simp only [Row.hits, encode, wordXYN_mask_digit]; rfl, by simp [encode]⟩

theorem ldImm (x : Reg) (nn : Byte) : Statement (.ldImm x nn) :=
  ⟨⟨0x6000, 0xF000, fun f => .ldImm f.x f.nn⟩, by simp [opcodeTable, rows0],
    by simp only [Row.hits, encode, wordXNN_mask]; rfl, by simp [encode]⟩

theorem addImm (x : Reg) (nn : Byte) : Statement (.addImm x nn) :=
  ⟨⟨0x7000, 0xF000, fun f => .addImm f.x f.nn⟩, by simp [opcodeTable, rows0],
    by simp only [Row.hits, encode, wordXNN_mask]; rfl, by simp [encode]⟩

theorem ldReg (x y : Reg) : Statement (.ldReg x y) :=
  ⟨⟨0x8000, 0xF00F, fun f => .ldReg f.x f.y⟩, by simp [opcodeTable, rows8],
    by simp only [Row.hits, encode, wordXYN_mask_digit]; rfl, by simp [encode]⟩

theorem orReg (x y : Reg) : Statement (.orReg x y) :=
  ⟨⟨0x8001, 0xF00F, fun f => .orReg f.x f.y⟩, by simp [opcodeTable, rows8],
    by simp only [Row.hits, encode, wordXYN_mask_digit]; rfl, by simp [encode]⟩

theorem andReg (x y : Reg) : Statement (.andReg x y) :=
  ⟨⟨0x8002, 0xF00F, fun f => .andReg f.x f.y⟩, by simp [opcodeTable, rows8],
    by simp only [Row.hits, encode, wordXYN_mask_digit]; rfl, by simp [encode]⟩

theorem xorReg (x y : Reg) : Statement (.xorReg x y) :=
  ⟨⟨0x8003, 0xF00F, fun f => .xorReg f.x f.y⟩, by simp [opcodeTable, rows8],
    by simp only [Row.hits, encode, wordXYN_mask_digit]; rfl, by simp [encode]⟩

theorem addReg (x y : Reg) : Statement (.addReg x y) :=
  ⟨⟨0x8004, 0xF00F, fun f => .addReg f.x f.y⟩, by simp [opcodeTable, rows8],
    by simp only [Row.hits, encode, wordXYN_mask_digit]; rfl, by simp [encode]⟩

theorem subReg (x y : Reg) : Statement (.subReg x y) :=
  ⟨⟨0x8005, 0xF00F, fun f => .subReg f.x f.y⟩, by simp [opcodeTable, rows8],
    by simp only [Row.hits, encode, wordXYN_mask_digit]; rfl, by simp [encode]⟩

theorem shr (x y : Reg) : Statement (.shr x y) :=
  ⟨⟨0x8006, 0xF00F, fun f => .shr f.x f.y⟩, by simp [opcodeTable, rows8],
    by simp only [Row.hits, encode, wordXYN_mask_digit]; rfl, by simp [encode]⟩

theorem subnReg (x y : Reg) : Statement (.subnReg x y) :=
  ⟨⟨0x8007, 0xF00F, fun f => .subnReg f.x f.y⟩, by simp [opcodeTable, rows8],
    by simp only [Row.hits, encode, wordXYN_mask_digit]; rfl, by simp [encode]⟩

theorem shl (x y : Reg) : Statement (.shl x y) :=
  ⟨⟨0x800E, 0xF00F, fun f => .shl f.x f.y⟩, by simp [opcodeTable, rows8],
    by simp only [Row.hits, encode, wordXYN_mask_digit]; rfl, by simp [encode]⟩

theorem sneReg (x y : Reg) : Statement (.sneReg x y) :=
  ⟨⟨0x9000, 0xF00F, fun f => .sneReg f.x f.y⟩, by simp [opcodeTable, rows9],
    by simp only [Row.hits, encode, wordXYN_mask_digit]; rfl, by simp [encode]⟩

theorem ldI (nnn : BitVec 12) : Statement (.ldI nnn) :=
  ⟨⟨0xA000, 0xF000, fun f => .ldI f.nnn⟩, by simp [opcodeTable, rows9],
    by simp only [Row.hits, encode, wordA_mask]; rfl, by simp [encode]⟩

theorem jpV0 (nnn : BitVec 12) : Statement (.jpV0 nnn) :=
  ⟨⟨0xB000, 0xF000, fun f => .jpV0 f.nnn⟩, by simp [opcodeTable, rows9],
    by simp only [Row.hits, encode, wordA_mask]; rfl, by simp [encode]⟩

theorem rnd (x : Reg) (nn : Byte) : Statement (.rnd x nn) :=
  ⟨⟨0xC000, 0xF000, fun f => .rnd f.x f.nn⟩, by simp [opcodeTable, rows9],
    by simp only [Row.hits, encode, wordXNN_mask]; rfl, by simp [encode]⟩

theorem drw (x y : Reg) (n : Fin 16) : Statement (.drw x y n) :=
  ⟨⟨0xD000, 0xF000, fun f => .drw f.x f.y f.n⟩, by simp [opcodeTable, rows9],
    by simp only [Row.hits, encode, wordXYN_mask]; rfl, by simp [encode]⟩

theorem skp (x : Reg) : Statement (.skp x) :=
  ⟨⟨0xE09E, 0xF0FF, fun f => .skp f.x⟩, by simp [opcodeTable, rows9],
    by simp only [Row.hits, encode, wordXNN_mask_byte]; rfl, by simp [encode]⟩

theorem sknp (x : Reg) : Statement (.sknp x) :=
  ⟨⟨0xE0A1, 0xF0FF, fun f => .sknp f.x⟩, by simp [opcodeTable, rows9],
    by simp only [Row.hits, encode, wordXNN_mask_byte]; rfl, by simp [encode]⟩

theorem ldVxDt (x : Reg) : Statement (.ldVxDt x) :=
  ⟨⟨0xF007, 0xF0FF, fun f => .ldVxDt f.x⟩, by simp [opcodeTable, rowsF],
    by simp only [Row.hits, encode, wordXNN_mask_byte]; rfl, by simp [encode]⟩

theorem ldDtVx (x : Reg) : Statement (.ldDtVx x) :=
  ⟨⟨0xF015, 0xF0FF, fun f => .ldDtVx f.x⟩, by simp [opcodeTable, rowsF],
    by simp only [Row.hits, encode, wordXNN_mask_byte]; rfl, by simp [encode]⟩

theorem ldStVx (x : Reg) : Statement (.ldStVx x) :=
  ⟨⟨0xF018, 0xF0FF, fun f => .ldStVx f.x⟩, by simp [opcodeTable, rowsF],
    by simp only [Row.hits, encode, wordXNN_mask_byte]; rfl, by simp [encode]⟩

theorem addI (x : Reg) : Statement (.addI x) :=
  ⟨⟨0xF01E, 0xF0FF, fun f => .addI f.x⟩, by simp [opcodeTable, rowsF],
    by simp only [Row.hits, encode, wordXNN_mask_byte]; rfl, by simp [encode]⟩

theorem ldF (x : Reg) : Statement (.ldF x) :=
  ⟨⟨0xF029, 0xF0FF, fun f => .ldF f.x⟩, by simp [opcodeTable, rowsF],
    by simp only [Row.hits, encode, wordXNN_mask_byte]; rfl, by simp [encode]⟩

theorem ldB (x : Reg) : Statement (.ldB x) :=
  ⟨⟨0xF033, 0xF0FF, fun f => .ldB f.x⟩, by simp [opcodeTable, rowsF],
    by simp only [Row.hits, encode, wordXNN_mask_byte]; rfl, by simp [encode]⟩

theorem storeRegs (x : Reg) : Statement (.storeRegs x) :=
  ⟨⟨0xF055, 0xF0FF, fun f => .storeRegs f.x⟩, by simp [opcodeTable, rowsF],
    by simp only [Row.hits, encode, wordXNN_mask_byte]; rfl, by simp [encode]⟩

theorem loadRegs (x : Reg) : Statement (.loadRegs x) :=
  ⟨⟨0xF065, 0xF0FF, fun f => .loadRegs f.x⟩, by simp [opcodeTable, rowsF],
    by simp only [Row.hits, encode, wordXNN_mask_byte]; rfl, by simp [encode]⟩

end Sys2Proof.Laws.RowMatch
end

