-- ==== Sys2Proof/Tests/Slice0.lean ====
section
/-! SUPPORT. Tests. Expected words and values come from 30_encoding.md R78 and the vectors of 95_test_vectors.md, whose numbers
(E, F, S, A, M, T, V, X) stand in the comments; the witnesses show that the hypotheses of each obligation can be met. -/

namespace Sys2Proof.Tests

open Sys2Proof Sys2Proof.Machine

/-! ### Helpers -/

/-- The reset state with some registers set. -/
def regs (vs : List (Reg × Byte)) : State := vs.foldl (fun s p => setV p.1 p.2 s) State.reset

/-- The policy `HIGH_NIBBLE_POLICY = fault`. -/
def faulting (s : State) : State := { s with cfg := { s.cfg with highNibble := .fault } }

/-- `ALLOW_ODD_PC = true`. -/
def oddPc (s : State) : State := { s with cfg := { s.cfg with allowOddPc := true } }

/-- The word `w` placed at PC and run for one step. -/
def ran (w : Nat) (s : State) : State :=
  match step (s.withFetchWord 16 w) with
  | .next t => t
  | _ => s

/-- Key number 0xA pressed. -/
def keyA (s : State) : State := { s with key := s.key.set 10 true }

/-- A stack with SP = `n` whose entries are all `a`. -/
def stacked (n : Fin 17) (a : Addr) (s : State) : State := { s with sp := n, stack := Vector.replicate 16 a }

/-! ### Well-formedness: an ill-formed term for each check -/

/-- The digit of 0x123 is 3, not 4 (R71). -/
theorem test_fields_ill_formed : Fields.wf ⟨0x1, 1, 2, 4, 0x23, 0x123⟩ = false := by decide
theorem test_fields_address_ill_formed : Fields.wf ⟨0x1, 1, 2, 3, 0x23, 0x124⟩ = false := by decide
theorem test_fields_well_formed : Fields.wf ⟨0x1, 1, 2, 3, 0x23, 0x123⟩ = true := by decide
/-- X14 -/
theorem test_rom_too_long : Rom.wf (List.replicate 3585 0) = false := by
  rw [Rom.wf, List.length_replicate]
  rfl
/-- X13 -/
theorem test_rom_fits : Rom.wf (List.replicate 3584 0) = true := by
  rw [Rom.wf, List.length_replicate]
  rfl
/-- A font at 0x1B1 would end above 0x200 (20_memory.md R54). -/
theorem test_font_outside_its_region : Params.wf { Params.default with fontBase := 0x1B1 } = false := by decide
theorem test_default_params : Params.wf Params.default = true := by decide

/-! ### Decoding: the word of every row, bit by bit (30_encoding.md R78) -/

theorem test_decode_control :
    decodeTableWord 16 0b0000000011101110 = some .ret ∧ decodeTableWord 16 0b0001101010111100 = some (.jp 0xABC) ∧
    decodeTableWord 16 0b0010001101000101 = some (.call 0x345) ∧
    decodeTableWord 16 0b1011001100000000 = some (.jpV0 0x300) := by decide

theorem test_decode_skip :
    decodeTableWord 16 0b0011001101000010 = some (.seImm 3 0x42) ∧
    decodeTableWord 16 0b0100001101000010 = some (.sneImm 3 0x42) ∧
    decodeTableWord 16 0b0101000100100000 = some (.seReg 1 2) ∧ decodeTableWord 16 0b1001000100100000 = some (.sneReg 1 2) ∧
    decodeTableWord 16 0b1110010110011110 = some (.skp 5) ∧ decodeTableWord 16 0b1110010110100001 = some (.sknp 5) := by decide

theorem test_decode_alu :
    decodeTableWord 16 0b0110000010101011 = some (.ldImm 0 0xAB) ∧
    decodeTableWord 16 0b0111111100000101 = some (.addImm 0xF 5) ∧
    decodeTableWord 16 0b1000101010110000 = some (.ldReg 0xA 0xB) ∧
    decodeTableWord 16 0b1000101010110001 = some (.orReg 0xA 0xB) ∧
    decodeTableWord 16 0b1000101010110010 = some (.andReg 0xA 0xB) ∧
    decodeTableWord 16 0b1000101010110011 = some (.xorReg 0xA 0xB) ∧
    decodeTableWord 16 0b1000101010110100 = some (.addReg 0xA 0xB) ∧
    decodeTableWord 16 0b1000101010110101 = some (.subReg 0xA 0xB) ∧
    decodeTableWord 16 0b1000101010110110 = some (.shr 0xA 0xB) ∧
    decodeTableWord 16 0b1000101010110111 = some (.subnReg 0xA 0xB) ∧
    decodeTableWord 16 0b1000101010111110 = some (.shl 0xA 0xB) ∧
    decodeTableWord 16 0b1100011111110000 = some (.rnd 7 0xF0) := by decide

theorem test_decode_index_memory :
    decodeTableWord 16 0b1010000100100011 = some (.ldI 0x123) ∧ decodeTableWord 16 0b1111001000011110 = some (.addI 2) ∧
    decodeTableWord 16 0b1111001100101001 = some (.ldF 3) ∧ decodeTableWord 16 0b1111010000110011 = some (.ldB 4) ∧
    decodeTableWord 16 0b1111111001010101 = some (.storeRegs 0xE) ∧
    decodeTableWord 16 0b1111111101100101 = some (.loadRegs 0xF) := by decide

theorem test_decode_timers_display :
    decodeTableWord 16 0b1111001100000111 = some (.ldVxDt 3) ∧ decodeTableWord 16 0b1111010000010101 = some (.ldDtVx 4) ∧
    decodeTableWord 16 0b1111010100011000 = some (.ldStVx 5) ∧ decodeTableWord 16 0b0000000011100000 = some .cls ∧
    decodeTableWord 16 0b1101000100101111 = some (.drw 1 2 0xF) := by decide

/-- S7, S10, A38, T10, X1 to X5. -/
theorem test_decode_unknown :
    [0x5121, 0x912F, 0x8018, 0x801F, 0x800D, 0xF00A, 0x0000, 0x0123, 0x00E1, 0x00FF, 0xE000, 0xE0A0, 0xE09F, 0xF000, 0xF0FF,
      0xF066].all (fun w => decodeTableWord 16 w == none) = true := by decide

theorem test_decode_truncated : decode [0x12] = .error (.truncated 1) ∧ decode [] = .error (.truncated 0) := ⟨rfl, rfl⟩

theorem test_encode :
    encode .ret = 0x00EE ∧ encode (.call 0x345) = 0x2345 ∧ encode (.seReg 1 2) = 0x5120 ∧ encode (.drw 1 2 0xF) = 0xD12F ∧
    encode (.shl 0xA 0xB) = 0x8ABE ∧ encode (.sknp 5) = 0xE5A1 ∧ encodeBytes (.ldB 4) = [0xF4, 0x33] := by decide

/-! ### Control transfer -/

/-- F1 -/
theorem test_jp : (ran 0x1ABC State.reset).pc = 0xABC := by decide
/-- F5 -/
theorem test_call : (ran 0x2345 State.reset).pc = 0x345 ∧ (ran 0x2345 State.reset).sp = 1 ∧
    (ran 0x2345 State.reset).stack[0] = 0x202 := by decide
/-- F7 -/
theorem test_call_overflow : (ran 0x2500 (stacked 16 0x202 State.reset)).fault = some (.stackOverflow, 0x200) := by decide
/-- F8 -/
theorem test_ret : (ran 0x00EE (setPc 0x344 (stacked 1 0x202 State.reset))).pc = 0x202 ∧
    (ran 0x00EE (setPc 0x344 (stacked 1 0x202 State.reset))).sp = 0 := by decide
/-- F9 -/
theorem test_ret_underflow : (ran 0x00EE State.reset).fault = some (.stackUnderflow, 0x200) := by decide
/-- F11, F13 -/
theorem test_jpV0 : (ran 0xBFFF (regs [(0, 0xFF)])).pc = 0x10FE ∧ (ran 0xB300 (regs [(0, 0x10), (3, 0x20)])).pc = 0x310 := by
  decide

/-! ### Skips -/

/-- S1, S2 -/
theorem test_seImm : (ran 0x3342 (regs [(3, 0x42)])).pc = 0x204 ∧ (ran 0x3343 (regs [(3, 0x42)])).pc = 0x202 := by decide
/-- S3, S4 -/
theorem test_sneImm : (ran 0x4342 (regs [(3, 0x42)])).pc = 0x202 ∧ (ran 0x4300 (regs [(3, 0x42)])).pc = 0x204 := by decide
/-- S5, S6 -/
theorem test_seReg : (ran 0x5120 (regs [(1, 7), (2, 7)])).pc = 0x204 ∧ (ran 0x5120 (regs [(1, 7), (2, 8)])).pc = 0x202 := by
  decide
/-- S8, S9 -/
theorem test_sneReg : (ran 0x9120 (regs [(1, 7), (2, 8)])).pc = 0x204 ∧ (ran 0x9120 (regs [(1, 7), (2, 7)])).pc = 0x202 := by
  decide
/-- S12, S15 -/
theorem test_skp : (ran 0xE59E (regs [(5, 0xA)])).pc = 0x202 ∧ (ran 0xE59E (keyA (regs [(5, 0x1A)]))).pc = 0x204 := by decide
/-- S13, S14 -/
theorem test_sknp : (ran 0xE5A1 (keyA (regs [(5, 0xA)]))).pc = 0x202 ∧ (ran 0xE5A1 (regs [(5, 0xA)])).pc = 0x204 := by decide
/-- S16 -/
theorem test_skp_policy : (ran 0xE59E (faulting (regs [(5, 0x1A)]))).fault = some (.operandOutOfRange 0xE59E, 0x200) := by decide

/-! ### Loads and arithmetic -/

/-- A1 -/
theorem test_ldImm : getV (ran 0x60AB State.reset) 0 = 0xAB ∧ (ran 0x60AB State.reset).pc = 0x202 := by decide
/-- A2, A3 -/
theorem test_addImm : getV (ran 0x70FF (regs [(0, 1), (15, 0x55)])) 0 = 0 ∧
    getV (ran 0x70FF (regs [(0, 1), (15, 0x55)])) 15 = 0x55 ∧ getV (ran 0x7F05 (regs [(15, 0x10)])) 15 = 0x15 := by decide
/-- A33 -/
theorem test_ldReg : getV (ran 0x8010 (regs [(0, 0x11), (1, 0x22)])) 0 = 0x22 := by decide
/-- A34 -/
theorem test_orReg : getV (ran 0x8011 (regs [(0, 0x0F), (1, 0xF0), (15, 0x77)])) 0 = 0xFF ∧
    getV (ran 0x8011 (regs [(0, 0x0F), (1, 0xF0), (15, 0x77)])) 15 = 0x77 := by decide
/-- A35 -/
theorem test_andReg : getV (ran 0x8012 (regs [(0, 0x3C), (1, 0x0F)])) 0 = 0x0C := by decide
/-- A36, A37 -/
theorem test_xorReg : getV (ran 0x8013 (regs [(0, 0xFF), (1, 0x0F)])) 0 = 0xF0 ∧ getV (ran 0x8223 (regs [(2, 0x5A)])) 2 = 0 := by
  decide
/-- A5, A11 -/
theorem test_addReg : getV (ran 0x8014 (regs [(0, 0xFF), (1, 1)])) 0 = 0 ∧ getV (ran 0x8014 (regs [(0, 0xFF), (1, 1)])) 15 = 1 ∧
    getV (ran 0x80F4 (regs [(0, 5), (15, 0x10)])) 0 = 0x15 := by decide
/-- A10 -/
theorem test_addReg_vf : getV (ran 0x8F14 (regs [(1, 0x90), (15, 0x90)])) 15 = 1 := by decide
/-- A14, A13 -/
theorem test_subReg : getV (ran 0x8015 (regs [(0, 0), (1, 1)])) 0 = 0xFF ∧ getV (ran 0x8015 (regs [(0, 0), (1, 1)])) 15 = 0 ∧
    getV (ran 0x8015 (regs [(0, 5), (1, 5)])) 15 = 1 := by decide
/-- A18 -/
theorem test_subReg_vf : getV (ran 0x8F15 (regs [(1, 6), (15, 5)])) 15 = 0 := by decide
/-- A19, A20 -/
theorem test_subnReg : getV (ran 0x8017 (regs [(0, 0x10), (1, 0x30)])) 0 = 0x20 ∧
    getV (ran 0x8017 (regs [(0, 0x10), (1, 0x30)])) 15 = 1 ∧ getV (ran 0x8017 (regs [(0, 5), (1, 3)])) 0 = 0xFE := by decide
/-- A22 -/
theorem test_subnReg_vf : getV (ran 0x8F17 (regs [(1, 5), (15, 6)])) 15 = 0 := by decide
/-- A23 with 0xAA in V1, A26 -/
theorem test_shr : getV (ran 0x8016 (regs [(0, 5), (1, 0xAA)])) 0 = 2 ∧ getV (ran 0x8016 (regs [(0, 5), (1, 0xAA)])) 15 = 1 ∧
    getV (ran 0x8016 (regs [(15, 1)])) 15 = 0 := by decide
/-- A27 -/
theorem test_shr_vf : getV (ran 0x8F16 (regs [(15, 2)])) 15 = 1 := by decide
/-- A28 with 0xAA in V1 -/
theorem test_shl : getV (ran 0x801E (regs [(0, 0x81), (1, 0xAA)])) 0 = 2 ∧
    getV (ran 0x801E (regs [(0, 0x81), (1, 0xAA)])) 15 = 1 := by decide
/-- A32 -/
theorem test_shl_vf : getV (ran 0x8F1E (regs [(15, 0x40)])) 15 = 0x80 := by decide
/-- A41: the byte drawn is the oracle's, which no proof can evaluate. -/
theorem test_rnd : ∃ t, exec (.rnd 0 0x0F) State.reset = .next t ∧ getV t 0 = Config.rand 0 &&& 0x0F ∧ t.draws = 1 :=
  ⟨_, rfl, rfl, rfl⟩

/-! ### Index register and memory -/

/-- M1 -/
theorem test_ldI : (ran 0xA123 State.reset).i = 0x123 := by decide
/-- M3, M4 -/
theorem test_addI : (ran 0xF01E (setI 0xFFF (regs [(0, 1)]))).i = 0x1000 ∧ (ran 0xF01E (setI 0xFFFF (regs [(0, 1)]))).i = 0 ∧
    getV (ran 0xF01E (setI 0xFFFF (regs [(0, 1)]))) 15 = 0 := by decide
/-- M5, M7, M8 -/
theorem test_ldF : (ran 0xF329 (regs [(3, 0xA)])).i = 0x082 ∧ (ran 0xF329 (regs [(3, 0xF)])).i = 0x09B ∧
    (ran 0xF329 (regs [(3, 0x1A)])).i = 0x082 := by decide
/-- M9 -/
theorem test_ldF_policy : (ran 0xF329 (faulting (regs [(3, 0x1A)]))).fault = some (.operandOutOfRange 0xF329, 0x200) := by decide
/-- M12 -/
theorem test_ldB : readBytes (ran 0xF433 (setI 0x300 (regs [(4, 0xFF)]))) 0x300 4 = [2, 5, 5, 0] := by decide
/-- M15 -/
theorem test_ldB_range : (ran 0xF433 (setI 0xFFE (regs [(4, 0x7B)]))).fault = some (.invalidAddress 0x1000, 0x200) ∧
    readBytes (ran 0xF433 (setI 0xFFE (regs [(4, 0x7B)]))) 0xFFE 2 = [0, 0] := by decide
/-- M16 -/
theorem test_storeRegs : readBytes (ran 0xF255 (setI 0x300 (regs [(0, 0x11), (1, 0x22), (2, 0x33), (3, 0x44)]))) 0x300 4 =
    [0x11, 0x22, 0x33, 0] ∧ (ran 0xF255 (setI 0x300 State.reset)).i = 0x300 := by decide
/-- M19, M22 -/
theorem test_storeRegs_edges : (ran 0xF355 (setI 0xFFD State.reset)).fault = some (.invalidAddress 0x1000, 0x200) ∧
    readByte (ran 0xF055 (setI 0x50 State.reset)) 0x50 = 0 := by decide
/-- M23: glyph 0 of the font -/
theorem test_loadRegs : (ran 0xF465 (setI 0x50 (regs [(5, 7)]))).v.toList.take 6 = [0xF0, 0x90, 0x90, 0x90, 0xF0, 7] := by decide
/-- M21 -/
theorem test_loadRegs_range : (ran 0xF165 (setI 0xFFFF State.reset)).fault = some (.invalidAddress 0xFFFF, 0x200) := by decide

/-! ### Timers -/

/-- T3, T4 -/
theorem test_ldVxDt : getV (ran 0xF307 (setDt 0x2A State.reset)) 3 = 0x2A ∧
    getV (ran 0xFF07 (setDt 0x2A State.reset)) 15 = 0x2A := by decide
/-- T1 -/
theorem test_ldDtVx : (ran 0xF015 (regs [(0, 0x3C)])).dt = 0x3C := by decide
/-- T2 -/
theorem test_ldStVx : (ran 0xF018 (regs [(0, 5)])).st = 5 := by decide
/-- T5, T6 -/
theorem test_tick : (tick (setSt 5 (setDt 1 State.reset))).dt = 0 ∧ (tick (setSt 5 (setDt 1 State.reset))).st = 4 ∧
    (tick State.reset).dt = 0 := by decide

/-! ### Display -/

/-- The reset state with `b` at 0x300, I there, and some registers. -/
def sprite (b : Byte) (vs : List (Reg × Byte)) : State := setI 0x300 (writeByte 0x300 b (regs vs))

/-- E5, V10: the cell (5, 7) was on -/
theorem test_cls :
    (ran 0x00E0 (setFb (setPixel (5, 7) true blankScreen) State.reset)).result = .ok (.toggled [(5, 7)] false) ∧
    getPixel (ran 0x00E0 (setFb (setPixel (5, 7) true blankScreen) State.reset)).fb (5, 7) = false := by decide
/-- V1 -/
theorem test_drw_wraps : (ran 0xD011 (sprite 0xC3 [(0, 60), (1, 31)])).result =
    .ok (.toggled [(60, 31), (61, 31), (2, 31), (3, 31)] false) := by decide
/-- V3, with cells 2 and 3 on -/
theorem test_drw_collides :
    getV (ran 0xD011 (setFb (setPixel (2, 0) true (setPixel (3, 0) true blankScreen)) (sprite 0x3C []))) 15 = 1 ∧
    (ran 0xD011 (setFb (setPixel (2, 0) true (setPixel (3, 0) true blankScreen)) (sprite 0x3C []))).result =
      .ok (.toggled [(2, 0), (3, 0), (4, 0), (5, 0)] true) := by decide

/-! ### Fetch and faults -/

/-- E6: the ROM 60 05 70 03 -/
theorem test_two_instruction_rom :
    ∃ s, create Params.default 0 [0x60, 0x05, 0x70, 0x03] = .next s ∧ getV (runCalls [.step, .step] s) 0 = 8 ∧
      (runCalls [.step, .step] s).pc = 0x204 := ⟨_, rfl, by decide, by decide⟩
/-- X7, X8 -/
theorem test_fetch_outside : (runCalls [.step] (setPc 0xFFF State.reset)).fault = some (.invalidAddress 0x1000, 0xFFF) ∧
    (runCalls [.step] (setPc 0x1000 State.reset)).fault = some (.invalidAddress 0x1000, 0x1000) := by decide
/-- X9, X10 -/
theorem test_odd_pc : (runCalls [.step] (setPc 0x203 State.reset)).fault = some (.misalignedPc 0x203, 0x203) ∧
    getV (ran 0x6007 (setPc 0x203 (oddPc State.reset))) 0 = 7 := by decide
/-- X15 -/
theorem test_empty_memory : (runCalls [.step] State.reset).fault = some (.unknownOpcode 0x0000, 0x200) := by decide
/-- X11 -/
theorem test_latched : step (setFault (some (.stackUnderflow, 0x200)) State.reset) = .fault .stackUnderflow := rfl
/-- The labels of 60_exceptions.md R250. -/
theorem test_fault_codes : faultCode (.invalidAddress 0x1000) = 1 ∧ faultCode (.operandOutOfRange 0xE59E) = 7 := ⟨rfl, rfl⟩
/-- The step runs the placed word. -/
theorem test_step_is_exec : step (State.reset.withFetchWord 16 0x6005) = exec (.ldImm 0 5) (State.reset.withFetchWord 16 0x6005) :=
  rfl

/-! ### Witnesses: the hypotheses of the obligations can be met -/

theorem witness_EncodeInvertsDecode : decode [0xD1, 0x2F, 0x00] = .ok (.drw 1 2 0xF, [0x00]) := rfl

/-- The last address an instruction can be fetched from. -/
def lastWord : State := placeWord 0x1200 (setPc 0xFFE State.reset)

theorem witness_StepRunsTheDecodedInstruction :
    lastWord.Live ∧ lastWord.pc.toNat + 1 < 4096 ∧ (lastWord.pc.toNat % 2 = 0 ∨ lastWord.cfg.allowOddPc = true) ∧
    decode [readByte lastWord lastWord.pc.toNat, readByte lastWord (lastWord.pc.toNat + 1)] = .ok (.jp 0x200, []) :=
  ⟨rfl, by decide, .inl rfl, rfl⟩

/-- An odd PC under ALLOW_ODD_PC. -/
def oddWord : State := placeWord 0x6007 (setPc 0xFFD (oddPc State.reset))

theorem witness_StepRunsTheDecodedInstruction_odd :
    oddWord.Live ∧ oddWord.pc.toNat + 1 < 4096 ∧ (oddWord.pc.toNat % 2 = 0 ∨ oddWord.cfg.allowOddPc = true) ∧
    decode [readByte oddWord oddWord.pc.toNat, readByte oddWord (oddWord.pc.toNat + 1)] = .ok (.ldImm 0 7, []) :=
  ⟨rfl, by decide, .inr rfl, rfl⟩

theorem witness_StepFaultsOnUnknownWord :
    State.reset.Live ∧ State.reset.pc.toNat + 1 < 4096 ∧ (State.reset.pc.toNat % 2 = 0 ∨ State.reset.cfg.allowOddPc = true) ∧
    decode [readByte State.reset State.reset.pc.toNat, readByte State.reset (State.reset.pc.toNat + 1)] =
      .error (.unknownOpcode 0x0000) := ⟨rfl, by decide, .inl rfl, rfl⟩

theorem witness_FetchOutsideMemoryFaults :
    (setPc 0x1000 State.reset).Live ∧ 4096 ≤ (setPc 0x1000 State.reset).pc.toNat ∧
    (setPc 0xFFF State.reset).Live ∧ (setPc 0xFFF State.reset).pc.toNat = 4095 := by decide

theorem witness_FetchAtOddPcFaults :
    (setPc 0xFFD State.reset).Live ∧ (setPc 0xFFD State.reset).pc.toNat < 4095 ∧ (setPc 0xFFD State.reset).pc.toNat % 2 = 1 ∧
    (setPc 0xFFD State.reset).cfg.allowOddPc = false := by decide

theorem witness_LatchedCoreRepeatsItsFault :
    (setFault (some (.stackOverflow, 0x200)) State.reset).fault = some (.stackOverflow, 0x200) := rfl

/-- One step that faults and one that completes. -/
theorem witness_FaultingStepWritesOnlyTheLatch :
    (∃ t, State.reset.Live ∧ step State.reset = .next t ∧ t.result = .fault (.unknownOpcode 0)) ∧
    (∃ t, (State.reset.withFetchWord 16 0x6005).Live ∧ step (State.reset.withFetchWord 16 0x6005) = .next t ∧
      t.result = .ok .none) := ⟨⟨_, rfl, rfl, rfl⟩, ⟨_, rfl, rfl, rfl⟩⟩

/-- Each kind of fault an instruction raises. -/
theorem witness_InstructionsRaiseOnlyTheirOwnFault :
    (∃ t, exec (.call 0) (setSp 16 State.reset) = .next t ∧ t.result = .fault .stackOverflow) ∧
    (∃ t, exec .ret State.reset = .next t ∧ t.result = .fault .stackUnderflow) ∧
    (∃ t, exec (.ldB 0) (setI 0xFFE State.reset) = .next t ∧ t.result = .fault (.invalidAddress 0x1000)) ∧
    (∃ t, exec (.ldF 0) (faulting (regs [(0, 0x10)])) = .next t ∧ t.result = .fault (.operandOutOfRange 0xF029)) :=
  ⟨⟨_, rfl, rfl⟩, ⟨_, rfl, rfl⟩, ⟨_, rfl, rfl⟩, ⟨_, rfl, rfl⟩⟩

theorem witness_LiveCoreAlwaysSteps : State.reset.Live := rfl

theorem witness_CallPushesTheReturnAddress :
    (setSp 15 State.reset).sp.val < 16 ∧ (setSp 16 State.reset).sp.val = 16 := by decide

theorem witness_ReturnPopsTheReturnAddress :
    (setSp 16 State.reset).sp.val = (15 : Fin 16).val + 1 ∧ (setSp 1 State.reset).sp.val = (0 : Fin 16).val + 1 ∧
    State.reset.sp.val = 0 := by decide

theorem witness_CallsThenReturnsRestorePc :
    ([0x300] : List (BitVec 12)) ≠ [] ∧ (setSp 15 State.reset).sp.val + ([0x300] : List (BitVec 12)).length ≤ 16 ∧
    (List.replicate 16 0x300 : List (BitVec 12)) ≠ [] ∧
    State.reset.sp.val + (List.replicate 16 0x300 : List (BitVec 12)).length ≤ 16 := by decide

theorem witness_SeventeenthNestedCallOverflows :
    (List.replicate 16 0x200 : List (BitVec 12)).length = 16 ∧ State.reset.sp.val = 0 := by decide

/-- A key number under the policy `fault`, and a larger value under `mask`. -/
theorem witness_KeySkipsTestTheKeypad :
    (15 : Fin 16).val = (getV (faulting (regs [(5, 15)])) 5).toNat % 16 ∧ (getV (faulting (regs [(5, 15)])) 5).toNat ≤ 15 ∧
    (10 : Fin 16).val = (getV (regs [(5, 0x1A)]) 5).toNat % 16 ∧ (regs [(5, 0x1A)]).cfg.highNibble = .mask := by decide

theorem witness_HighOperandFaultsUnderFaultPolicy :
    15 < (getV (faulting (regs [(5, 0x10)])) 5).toNat ∧ (faulting (regs [(5, 0x10)])).cfg.highNibble = .fault := by decide

/-- The words of the encoding clauses: 3XNN, 4XNN, 6XNN, 8XY0, 7XNN, ANNN, FX07, FX15, FX18. -/
theorem witness_Encodings :
    (0x3342 : Word) &&& 0xF000 = 0x3000 ∧ (0x4F00 : Word) &&& 0xF000 = 0x4000 ∧ (0x6005 : Word) &&& 0xF000 = 0x6000 ∧
    (0x8FF0 : Word) &&& 0xF00F = 0x8000 ∧ (0x70FF : Word) &&& 0xF000 = 0x7000 ∧ (0xAFFF : Word) &&& 0xF000 = 0xA000 ∧
    (0xFF07 : Word) &&& 0xF0FF = 0xF007 ∧ (0xF015 : Word) &&& 0xF0FF = 0xF015 ∧ (0xF518 : Word) &&& 0xF0FF = 0xF018 := by
  decide

/-- The clauses on X ≠ F, Y ≠ X and NN = 0 speak of some operands. -/
theorem witness_ArithmeticOperands : (0 : Reg) ≠ 15 ∧ (1 : Reg) ≠ 0 ∧ (0x00 : Byte) = 0 := by decide

theorem witness_GlyphAddressIsInTheFont :
    (faulting (regs [(3, 15)])).cfg.wf = true ∧ (getV (faulting (regs [(3, 15)])) 3).toNat ≤ 15 ∧
    (regs [(3, 0xFF)]).cfg.wf = true ∧ (regs [(3, 0xFF)]).cfg.highNibble = .mask := by decide

theorem witness_DecimalDigitsAreStored : (setI 0xFFD State.reset).i.toNat + 3 ≤ 4096 := by decide

theorem witness_RegistersAreStored : (setI 0xFF0 State.reset).i.toNat + (15 : Reg).val + 1 ≤ 4096 := by decide

theorem witness_RegistersAreLoaded : (setI 0xFFF State.reset).i.toNat + (0 : Reg).val + 1 ≤ 4096 := by decide

/-- All four accesses cross the end of memory from 0xFFE; a base above it is its own fault address. -/
theorem witness_AccessBeyondMemoryFaults :
    (0x1000 : Addr).toNat = max (setI 0xFFE State.reset).i.toNat 4096 ∧ 4096 < (setI 0xFFE State.reset).i.toNat + 3 ∧
    4096 < (setI 0xFFE State.reset).i.toNat + (2 : Reg).val + 1 ∧ 0 < (3 : Fin 16).val ∧
    4096 < (setI 0xFFE State.reset).i.toNat + (3 : Fin 16).val ∧
    (0xFFFF : Addr).toNat = max (setI 0xFFFF State.reset).i.toNat 4096 ∧
    4096 < (setI 0xFFFF State.reset).i.toNat + (0 : Reg).val + 1 := by decide

/-- FX55 at 0xFFC over the next word, 0x1208. -/
def patching : State := placeWord 0xF155 (setPc 0xFFC (setI 0xFFE (regs [(0, 0x12), (1, 0x08)])))

theorem witness_StoredCodeIsFetchedNext :
    patching.Live ∧ patching.pc.toNat + 4 ≤ 4096 ∧ (patching.pc.toNat % 2 = 0 ∨ patching.cfg.allowOddPc = true) ∧
    decode [readByte patching patching.pc.toNat, readByte patching (patching.pc.toNat + 1)] = .ok (.storeRegs 1, []) ∧
    patching.i.toNat + (firstRegs patching 1).length ≤ 4096 ∧
    decode [byteAfter patching patching.i.toNat (firstRegs patching 1) (patching.pc.toNat + 2),
      byteAfter patching patching.i.toNat (firstRegs patching 1) (patching.pc.toNat + 3)] = .ok (.jp 0x208, []) :=
  ⟨rfl, by decide, .inl rfl, rfl, by decide, rfl⟩

/-- FX33 at 0x200 with I = `i` and VX = 123, before a word 0x6000. -/
def digits (i : Addr) : State := placeWord 0xF033 (writeByte 0x202 0x60 (setI i (regs [(0, 0x7B)])))

/-- FX33 over the second byte of the next word alone, which then is 0x6001, and over both, which then are 0x0102. -/
theorem witness_StoredCodeIsFetchedNext_digits :
    decode [readByte (digits 0x203) 0x200, readByte (digits 0x203) 0x201] = .ok (.ldB 0, []) ∧
    decode [byteAfter (digits 0x203) 0x203 (decimalDigits 0x7B) 0x202,
      byteAfter (digits 0x203) 0x203 (decimalDigits 0x7B) 0x203] = .ok (.ldImm 0 1, []) ∧
    decode [readByte (digits 0x202) 0x200, readByte (digits 0x202) 0x201] = .ok (.ldB 0, []) ∧
    decode [byteAfter (digits 0x202) 0x202 (decimalDigits 0x7B) 0x202,
      byteAfter (digits 0x202) 0x202 (decimalDigits 0x7B) 0x203] = .error (.unknownOpcode 0x0102) ∧
    (digits 0x202).Live ∧ (digits 0x202).pc = 0x200 ∧ getV (digits 0x202) 0 = 0x7B ∧ (digits 0x202).i = 0x202 ∧
    (digits 0x203).Live ∧ (digits 0x203).pc = 0x200 ∧ getV (digits 0x203) 0 = 0x7B ∧ (digits 0x203).i = 0x203 :=
  ⟨rfl, rfl, rfl, rfl, rfl, rfl, rfl, rfl, rfl, rfl, rfl, rfl⟩

theorem witness_CanonicalMemoriesThatReadAlikeAreEqual :
    Memory.wf Params.default (Memory.write Params.default [] 0x300 7) = true ∧
    Memory.wf Params.default (Memory.writeAll Params.default [] 0x2FF [0, 7]) = true ∧
    ∀ a, a < 4096 → Memory.read Params.default (Memory.write Params.default [] 0x300 7) a =
      Memory.read Params.default (Memory.writeAll Params.default [] 0x2FF [0, 7]) a :=
  ⟨by decide, by decide, fun _ _ => rfl⟩

/-- Nothing is read for N = 0; 15 rows end at the last byte. -/
theorem witness_DrawTogglesTheCoveredCells :
    ((0 : Fin 16).val = 0 ∨ (setI 0xFFFF State.reset).i.toNat + (0 : Fin 16).val ≤ 4096) ∧
    ((15 : Fin 16).val = 0 ∨ (setI 0xFF1 State.reset).i.toNat + (15 : Fin 16).val ≤ 4096) := by decide

theorem witness_ReportNamesTheChangedCells :
    (∃ t, exec .cls State.reset = .next t ∧ t.result = .ok (.toggled [] false)) ∧
    (∃ t, exec (.drw 0 1 1) (sprite 0x80 []) = .next t ∧ t.result = .ok (.toggled [(0, 0)] false)) ∧
    (∃ t, exec (.ldImm 0 5) State.reset = .next t ∧ t.result = .ok .none) :=
  ⟨⟨_, rfl, by decide⟩, ⟨_, rfl, by decide⟩, ⟨_, rfl, rfl⟩⟩

/-- Each kind of write happens. -/
theorem witness_OnlyTheNamedInstructionsWrite :
    (∃ t, exec (.ldI 5) State.reset = .next t ∧ t.i ≠ State.reset.i) ∧
    (∃ t, exec (.call 5) State.reset = .next t ∧ t.sp ≠ State.reset.sp ∧ t.stack ≠ State.reset.stack) ∧
    (∃ t, exec (.ldDtVx 0) (regs [(0, 1)]) = .next t ∧ t.dt ≠ (regs [(0, 1)]).dt) ∧
    (∃ t, exec (.ldStVx 0) (regs [(0, 1)]) = .next t ∧ t.st ≠ (regs [(0, 1)]).st) ∧
    (∃ t, exec (.drw 0 1 1) (sprite 0x80 []) = .next t ∧ t.fb ≠ (sprite 0x80 []).fb) ∧
    (∃ t, exec (.ldB 0) (setI 0x300 (regs [(0, 1)])) = .next t ∧
      readByte t 0x302 ≠ readByte (setI 0x300 (regs [(0, 1)])) 0x302) ∧
    (∃ t, exec (.rnd 0 0) State.reset = .next t ∧ t.draws ≠ State.reset.draws) :=
  ⟨⟨_, rfl, by decide⟩, ⟨_, rfl, by decide, by decide⟩, ⟨_, rfl, by decide⟩, ⟨_, rfl, by decide⟩, ⟨_, rfl, by decide⟩,
    ⟨_, rfl, by decide⟩, ⟨_, rfl, by decide⟩⟩

theorem witness_NoInstructionReadsSt : (Instr.drw 1 2 3 matches .ldStVx _) = false := rfl

/-- SP = 1, and another value in a dead entry. -/
theorem witness_DeadStackEntriesAreNeverSeen :
    SameButDeadEntries (stacked 1 0x202 State.reset)
      { stacked 1 0x202 State.reset with stack := (Vector.replicate 16 0x202).set 1 0x300 } := by
  refine ⟨rfl, ?_⟩
  decide

/-- A state that is not reset and goes on. -/
theorem witness_StepKeepsTheInvariant : lastWord.Inv ∧ ∃ t, step lastWord = .next t :=
  ⟨⟨by decide, by decide, by decide, by decide, fun _ _ h => nomatch h⟩, _, rfl⟩

/-- A latched state at the highest PC. -/
theorem witness_HostCallsKeepTheInvariant :
    State.Inv { setPc 0x10FE State.reset with
      fault := some (.invalidAddress 0x10FE, 0x10FE), result := .fault (.invalidAddress 0x10FE) } :=
  ⟨by decide, by decide, by decide, by decide, fun kind p h => by
    obtain ⟨rfl, rfl⟩ := Prod.mk.inj (Option.some.inj h)
    exact ⟨rfl, rfl, show 4096 ≤ 0x10FE by decide⟩⟩

/-- A session of a JP to itself after two calls. -/
theorem witness_ReachableStatesMeetTheInvariant :
    ∃ s0, create Params.default 0 [0x12, 0x00] = .next s0 ∧ Reachable (runCalls [.step, .tick] s0) :=
  ⟨_, rfl, Params.default, 0, [0x12, 0x00], _, [.step, .tick], by decide, rfl, rfl⟩

theorem witness_CreatePlacesTheRom :
    Params.default.wf = true ∧ (List.replicate 3584 0x12 : List Byte).length ≤ 3584 ∧
    Params.wf { Params.default with fontBase := 0x1B0 } = true :=
  ⟨by decide, by rw [List.length_replicate], by decide⟩

theorem witness_HardResetForgetsTheOldState :
    (List.replicate 3584 0x12 : List Byte).length ≤ 3584 ∧ State.reset.cfg.wf = true :=
  ⟨by rw [List.length_replicate], by decide⟩

theorem witness_SelfJumpStaysPut : (State.reset.withFetchWord 16 0x1200).AtSelfJump :=
  ⟨rfl, by decide, .inl rfl, 0x200, rfl, rfl⟩

theorem witness_OversizedRomIsRefused : 3584 < (List.replicate 3585 0x12 : List Byte).length := by rw [List.length_replicate]; decide

end Sys2Proof.Tests
end

section
/-! PROOFS of the statements about the state (10_state.md). What a meaning can write is said once (`Writes`, `PcAfter`,
`exec_cases`), and what it cannot see once (`exec_hide`); the statements follow from the two. -/

namespace Sys2Proof.Machine

/-! ### What a completed instruction writes -/

/-- `Writes s i u`: beside PC and what the call returns, `u` differs from `s` at most in what instruction `i` may write. -/
inductive Writes (s : State) : Instr → State → Prop
  /-- any instruction may write general registers -/
  | regs (i : Instr) (v : Vector Byte 16) : Writes s i { s with v := v }
  /-- ANNN, FX1E, FX29 -/
  | index {i : Instr} (h : (i matches .ldI _ | .addI _ | .ldF _) = true) (a : Addr) : Writes s i { s with i := a }
  /-- 00EE leaves the popped entry in place -/
  | pop (n : Fin 17) : Writes s .ret { s with sp := n }
  /-- 2NNN -/
  | push (nnn : BitVec 12) (n : Fin 17) (h : s.sp.val < 16) :
      Writes s (.call nnn) { s with stack := s.stack.set s.sp.val (s.pc + 2), sp := n }
  /-- FX15 -/
  | delay (x : Reg) (b : Byte) : Writes s (.ldDtVx x) { s with dt := b }
  /-- FX18 -/
  | sound (x : Reg) (b : Byte) : Writes s (.ldStVx x) { s with st := b }
  /-- 00E0, DXYN -/
  | screen {i : Instr} (h : (i matches .cls | .drw ..) = true) (f : Framebuffer) (v : Vector Byte 16) :
      Writes s i { s with fb := f, v := v }
  /-- FX33, FX55 -/
  | store {i : Instr} (h : (i matches .ldB _ | .storeRegs _) = true) (a : Nat) (bytes : List Byte) :
      Writes s i { s with mem := Memory.writeAll s.cfg s.mem a bytes }
  /-- CXNN -/
  | draw (x : Reg) (nn : Byte) (n : Nat) (v : Vector Byte 16) : Writes s (.rnd x nn) { s with draws := n, v := v }

/-- Where a completed instruction can leave PC: after itself, after the instruction it skips, at a jump's target
(10_state.md R26), or at a stack entry. -/
def PcAfter (s : State) (p : Addr) : Prop :=
  p = s.pc + 2 ∨ p = s.pc + 2 + 2 ∨ p.toNat ≤ 0x10FE ∨ ∃ j : Fin 16, p = s.stack[j.val]

theorem pcAfter_skip (c : Bool) (s : State) : PcAfter s (if c then s.pc + 2 + 2 else s.pc + 2) := by
  cases c
  · exact .inl rfl
  · exact .inr (.inl rfl)

theorem pcAfter_jump (s : State) (nnn : BitVec 12) : PcAfter s (zextAddr nnn) := by
  have := nnn.isLt
  refine .inr (.inr (.inl ?_))
  rw [zextAddr_toNat]
  omega

theorem pcAfter_jumpV0 (s : State) (b : Byte) (nnn : BitVec 12) : PcAfter s (zextByte b + zextAddr nnn) := by
  have := b.isLt
  have := nnn.isLt
  refine .inr (.inr (.inl ?_))
  rw [BitVec.toNat_add, zextByte_toNat, zextAddr_toNat]
  omega

/-- A failing range check raises a fault that fits every state (60_exceptions.md R250). -/
theorem checkRange_fits {base : Addr} {n : Nat} {kind : Fault} (h : checkRange base n = some kind) (s : State) :
    FaultFits kind s := by
  obtain ⟨-, -, rfl⟩ := checkRange_fault h
  show Config.memSize ≤ (if Config.memSize ≤ base.toNat then base else 0x1000).toNat
  split
  · assumption
  · exact Nat.le_refl _

/-- A failing nibble operand is under the policy `fault` (42_skip.md R132). -/
theorem operand_fits {s : State} {x : Reg} {w : Word} (h : ¬ ((getV s x).toNat ≤ 15 ∨ s.cfg.highNibble = .mask))
    (hw : w = encode (.skp x) ∨ w = encode (.sknp x) ∨ w = encode (.ldF x)) : FaultFits (.operandOutOfRange w) s := by
  refine ⟨?_, x, hw⟩
  cases hp : s.cfg.highNibble
  · exact absurd (.inr hp) h
  · rfl

/-- Everything an instruction can do: it raises a fault that fits the state, or it completes, writing what it may write. -/
theorem exec_cases (i : Instr) (s : State) :
    (∃ kind, exec i s = raise kind s ∧ FaultFits kind s) ∨
    (∃ e p u, exec i s = complete e (setPc p u) ∧ Writes s i u ∧ PcAfter s p) := by
  cases i
  case ret =>
    by_cases h : s.sp.val = 0
    · exact .inl ⟨_, execRet_underflow h, h⟩
    · have hlt : s.sp.val - 1 < 16 := by have := s.sp.isLt; omega
      rw [exec, execRet, pop_eq s (by omega)]
      exact .inr ⟨_, _, _, rfl, .pop _, .inr (.inr (.inr ⟨⟨s.sp.val - 1, hlt⟩, rfl⟩))⟩
  case call nnn =>
    by_cases h : s.sp.val = 16
    · exact .inl ⟨_, execCall_overflow nnn h, h⟩
    · have hlt : s.sp.val < 16 := by have := s.sp.isLt; omega
      rw [exec, execCall, push_eq _ s hlt]
      exact .inr ⟨_, _, _, rfl, .push nnn _ hlt, pcAfter_jump s nnn⟩
  case jp nnn => exact .inr ⟨_, _, _, rfl, .regs _ _, pcAfter_jump s nnn⟩
  case jpV0 nnn => exact .inr ⟨_, _, _, rfl, .regs _ _, pcAfter_jumpV0 s _ nnn⟩
  case seImm | sneImm | seReg | sneReg => exact .inr ⟨_, _, _, rfl, .regs _ _, pcAfter_skip _ s⟩
  case skp x =>
    by_cases h : (getV s x).toNat ≤ 15 ∨ s.cfg.highNibble = .mask
    · exact .inr ⟨_, _, _, execSkp_eq h, .regs _ _, pcAfter_skip _ s⟩
    · exact .inl ⟨_, execSkp_fault h, operand_fits h (.inl rfl)⟩
  case sknp x =>
    by_cases h : (getV s x).toNat ≤ 15 ∨ s.cfg.highNibble = .mask
    · exact .inr ⟨_, _, _, execSknp_eq h, .regs _ _, pcAfter_skip _ s⟩
    · exact .inl ⟨_, execSknp_fault h, operand_fits h (.inr (.inl rfl))⟩
  case ldF x =>
    by_cases h : (getV s x).toNat ≤ 15 ∨ s.cfg.highNibble = .mask
    · exact .inr ⟨_, _, _, execLdF_eq h, .index rfl _, .inl rfl⟩
    · exact .inl ⟨_, execLdF_fault h, operand_fits h (.inr (.inr rfl))⟩
  case ldB x | storeRegs x =>
    simp only [exec, execLdB, execStoreRegs]
    split
    · exact .inl ⟨_, rfl, checkRange_fits ‹_› s⟩
    · exact .inr ⟨_, _, _, rfl, .store rfl _ _, .inl rfl⟩
  case loadRegs x =>
    simp only [exec, execLoadRegs]
    split
    · exact .inl ⟨_, rfl, checkRange_fits ‹_› s⟩
    · exact .inr ⟨_, _, _, rfl, .regs _ _, .inl rfl⟩
  case drw x y n =>
    simp only [exec, execDrw]
    split
    · exact .inl ⟨_, rfl, checkRange_fits ‹_› s⟩
    · exact .inr ⟨_, _, _, rfl, .screen rfl _ _, .inl rfl⟩
  case cls => exact .inr ⟨_, _, _, rfl, .screen rfl _ _, .inl rfl⟩
  case ldI | addI => exact .inr ⟨_, _, _, rfl, .index rfl _, .inl rfl⟩
  case ldDtVx => exact .inr ⟨_, _, _, rfl, .delay _ _, .inl rfl⟩
  case ldStVx => exact .inr ⟨_, _, _, rfl, .sound _ _, .inl rfl⟩
  case rnd => exact .inr ⟨_, _, _, rfl, .draw _ _ _ _, .inl rfl⟩
  case ldImm | addImm | ldReg | orReg | andReg | xorReg | addReg | subReg | shr | subnReg | shl | ldVxDt =>
    exact .inr ⟨_, _, _, rfl, .regs _ _, .inl rfl⟩

/-! ### The invariant of a session -/

/-- Whether a fault fits depends on SP, PC and the parameters only. -/
theorem faultFits_congr {kind : Fault} {s t : State} (hsp : t.sp = s.sp) (hpc : t.pc = s.pc) (hcfg : t.cfg = s.cfg)
    (h : FaultFits kind s) : FaultFits kind t := by
  unfold FaultFits at h ⊢
  rwa [hsp, hpc, hcfg]

theorem inv_raised {s : State} {kind : Fault} (h : s.Inv) (hk : FaultFits kind s) :
    State.Inv (setResult (.fault kind) (setFault (some (kind, s.pc)) s)) where
  memory := h.memory
  params := h.params
  pc := h.pc
  stack := h.stack
  latch := by
    intro k p hkp
    obtain ⟨rfl, rfl⟩ := Prod.mk.inj (Option.some.inj hkp)
    exact ⟨rfl, rfl, faultFits_congr (s := s) rfl rfl rfl hk⟩

theorem Writes.fault {s u : State} {i : Instr} (h : Writes s i u) : u.fault = s.fault := by cases h <;> rfl

theorem Writes.cfg {s u : State} {i : Instr} (h : Writes s i u) : u.cfg = s.cfg := by cases h <;> rfl

theorem Writes.memory_wf {s u : State} {i : Instr} (h : Writes s i u) (hm : Memory.wf s.cfg s.mem = true) :
    Memory.wf s.cfg u.mem = true := by
  cases h
  case store a bytes _ => exact Memory.wf_writeAll bytes a hm
  all_goals exact hm

/-- An entry of the stack afterwards is an old one, or the return address of a call. -/
theorem Writes.stack_entry {s u : State} {i : Instr} (h : Writes s i u) (j : Fin 16) :
    u.stack[j.val] = s.stack[j.val] ∨ u.stack[j.val] = s.pc + 2 := by
  cases h
  case push nnn n hlt =>
    simp only [Vector.getElem_set]
    split
    · exact .inr rfl
    · exact .inl rfl
  all_goals exact .inl rfl

/-- The successor of a PC that can be fetched from is at most 0x1000 (30_encoding.md R90). -/
theorem nextPc_le {s : State} (h : s.pc.toNat + 1 < Config.memSize) : (s.pc + 2).toNat ≤ 0x1000 := by
  have h2 : BitVec.toNat (2 : Addr) = 2 := rfl
  simp only [Config.memSize] at h
  rw [BitVec.toNat_add]
  omega

theorem PcAfter.le {s : State} {p : Addr} (h : PcAfter s p) (hpc : s.pc.toNat + 1 < Config.memSize)
    (hst : ∀ j : Fin 16, s.stack[j.val].toNat ≤ 0x1000) : p.toNat ≤ 0x10FE := by
  have hnext := nextPc_le hpc
  rcases h with rfl | rfl | hp | ⟨j, rfl⟩
  · omega
  · have h2 : BitVec.toNat (2 : Addr) = 2 := rfl
    rw [BitVec.toNat_add]
    omega
  · exact hp
  · have := hst j
    omega

/-- An instruction that completes on a live core with a fetchable PC keeps the invariant. -/
theorem inv_completed {s u : State} {i : Instr} {e : Effect} {p : Addr} (h : s.Inv) (hl : s.Live)
    (hpc : s.pc.toNat + 1 < Config.memSize) (hw : Writes s i u) (hp : PcAfter s p) :
    State.Inv (setResult (.ok e) (setPc p u)) where
  memory := by simpa [hw.cfg] using hw.memory_wf h.memory
  params := by simpa [hw.cfg] using h.params
  pc := hp.le hpc h.stack
  stack := by
    intro j
    have hj := h.stack j
    have hnext := nextPc_le hpc
    rcases hw.stack_entry j with he | he <;> simpa only [setResult_stack, setPc_stack, he]
  latch := by
    intro kind q hq
    cases (hw.fault.trans hl).symm.trans hq

theorem inv_exec {s t : State} {i : Instr} (h : s.Inv) (hl : s.Live) (hpc : s.pc.toNat + 1 < Config.memSize)
    (ht : exec i s = .next t) : t.Inv := by
  rcases exec_cases i s with ⟨kind, he, hk⟩ | ⟨e, p, u, he, hw, hp⟩
  · cases he.symm.trans ht
    exact inv_raised h hk
  · cases he.symm.trans ht
    exact inv_completed h hl hpc hw hp

/-- What a failing fetch check raises fits the state. -/
theorem checkFetch_fits {s : State} {kind : Fault} (h : checkFetch s = some kind) : FaultFits kind s := by
  rcases checkFetch_fault h with ⟨hpc, rfl⟩ | ⟨-, rfl⟩ | ⟨-, hodd, hcfg, rfl⟩
  · exact hpc
  · exact Nat.le_refl _
  · exact ⟨rfl, hodd, hcfg⟩

/-- Settles O51, by what a step can do (`step_cases`): the two fetch faults fit the state, and the instruction keeps the
invariant because its PC could be fetched from. -/
theorem stepKeepsTheInvariant : Obligations.StepKeepsTheInvariant := by
  intro s t h ht
  obtain ⟨hl, ⟨kind, hf, hr⟩ | ⟨-, hd, hr⟩ | ⟨hf, i, -, he⟩⟩ := step_cases ht
  · cases hr
    exact inv_raised h (checkFetch_fits hf)
  · cases hr
    exact inv_raised h hd
  · exact inv_exec h hl ((checkFetch_eq_none s).1 hf).1 he

/-- The state in which a session starts meets the invariant, whatever the ROM (70_reset_and_hazards.md R290). -/
theorem inv_created {c : Params} (hc : c.wf = true) (draws : Nat) (rom : List Byte) :
    State.Inv { State.reset with cfg := c, draws := draws, mem := Memory.writeAll c [] Config.programBase rom } where
  memory := Memory.wf_writeAll rom Config.programBase (m := []) rfl
  params := hc
  pc := show State.reset.pc.toNat ≤ 0x10FE by decide
  stack := show ∀ j : Fin 16, State.reset.stack[j.val].toNat ≤ 0x1000 by decide
  latch := by
    intro kind p hkp
    cases hkp

/-- A session that `create` starts meets the invariant. -/
theorem create_inv {c : Params} {draws : Nat} {rom : List Byte} {s : State} (hc : c.wf = true)
    (h : create c draws rom = .next s) : s.Inv := by
  by_cases hr : Rom.wf rom = true
  · cases (create_fits c draws hr).symm.trans h
    exact inv_created hc draws rom
  · cases (create_too_large c draws hr).symm.trans h

/-- Every call of the host keeps the invariant (60_exceptions.md R270). -/
theorem hostCall_keeps_inv (c : HostCall) (s : State) (h : s.Inv) : (hostCall c s).1.Inv := by
  cases c with
  | step =>
    simp only [hostCall]
    split
    · exact stepKeepsTheInvariant s _ h ‹_›
    · exact h
    · exact h
  | tick | setKeys k =>
    refine ⟨h.memory, h.params, h.pc, h.stack, fun kind p hkp => ?_⟩
    obtain ⟨hp, hr, hf⟩ := h.latch kind p hkp
    exact ⟨hp, hr, faultFits_congr (s := s) rfl rfl rfl hf⟩
  | snapshot => exact h
  | hardReset rom =>
    simp only [hostCall]
    split
    · exact create_inv h.params ‹hardReset rom s = _›
    · exact h
    · exact h

/-- Settles O54: the session's first state meets the invariant, and every call keeps it. -/
theorem reachableStatesMeetTheInvariant : Obligations.ReachableStatesMeetTheInvariant := by
  rintro s ⟨c, draws, rom, s0, cs, hc, hcreate, rfl⟩
  exact runCalls_keeps hostCall_keeps_inv cs (create_inv hc hcreate)

/-- Settles O52: the reset state is the one `create` makes of the default parameters and an empty ROM. -/
theorem resetMeetsTheInvariant : Obligations.ResetMeetsTheInvariant :=
  inv_created (c := Params.default) (by decide) 0 []

/-! ### Who writes what -/

/-- Settles O48: a raised fault writes none of the fields, and each way to complete writes its own. -/
theorem onlyTheNamedInstructionsWrite : Obligations.OnlyTheNamedInstructionsWrite := by
  intro i s t ht
  rcases exec_cases i s with ⟨kind, he, -⟩ | ⟨e, p, u, he, hw, -⟩
  · cases he.symm.trans ht
    simp [readByte]
  · cases he.symm.trans ht
    cases hw with
    | regs v => simp [readByte]
    | index h a =>
      exact ⟨fun _ => h, absurd rfl, absurd rfl, absurd rfl, absurd rfl, absurd rfl, fun ⟨_, hb⟩ => absurd rfl hb,
        absurd rfl, rfl, rfl⟩
    | pop n => simp [readByte]
    | push nnn n h => simp [readByte]
    | delay x b => simp [readByte]
    | sound x b => simp [readByte]
    | screen h f v =>
      exact ⟨absurd rfl, absurd rfl, absurd rfl, absurd rfl, absurd rfl, fun _ => h, fun ⟨_, hb⟩ => absurd rfl hb,
        absurd rfl, rfl, rfl⟩
    | store h a bytes =>
      exact ⟨absurd rfl, absurd rfl, absurd rfl, absurd rfl, absurd rfl, absurd rfl, fun _ => h, absurd rfl, rfl, rfl⟩
    | draw x nn n v => simp [readByte]

/-! ### What no instruction sees -/

/-- A change of ST and of the stack entries. -/
def hide (g : Byte → Byte) (k : Vector Addr 16 → Vector Addr 16) (s : State) : State :=
  setSt (g s.st) (setStack (k s.stack) s)

theorem hide_i (g : Byte → Byte) (k : Vector Addr 16 → Vector Addr 16) (s : State) : (hide g k s).i = s.i := rfl
theorem hide_cfg (g : Byte → Byte) (k : Vector Addr 16 → Vector Addr 16) (s : State) : (hide g k s).cfg = s.cfg := rfl
theorem getV_hide (g : Byte → Byte) (k : Vector Addr 16 → Vector Addr 16) (s : State) (x : Reg) :
    getV (hide g k s) x = getV s x := rfl

/-- An instruction does not see the change, and hands it on: of ST unless it is FX18, which overwrites ST, and of the stack
entries unless it is 2NNN or 00EE. -/
theorem exec_hide (i : Instr) (s : State) (g : Byte → Byte) (k : Vector Addr 16 → Vector Addr 16)
    (hst : ∀ x, i = .ldStVx x → g = id) (hcall : ∀ nnn, i = .call nnn → k = id) (hret : i = .ret → k = id) :
    exec i (hide g k s) = mapNext (hide g k) (exec i s) := by
  cases i
  case ldStVx x => cases hst x rfl; rfl
  case call nnn =>
    cases hcall nnn rfl
    by_cases h : s.sp.val < 16
    · simp only [exec, execCall_eq nnn h, execCall_eq (s := hide g id s) nnn h]
      rfl
    · have h : s.sp.val = 16 := by have := s.sp.isLt; omega
      simp only [exec, execCall_overflow nnn h, execCall_overflow (s := hide g id s) nnn h]
      rfl
  case ret =>
    cases hret rfl
    by_cases h : s.sp.val = 0
    · simp only [exec, execRet_underflow h, execRet_underflow (s := hide g id s) h]
      rfl
    · have h : 0 < s.sp.val := by omega
      simp only [exec, execRet_eq h, execRet_eq (s := hide g id s) h]
      rfl
  case skp x | sknp x | ldF x =>
    simp only [exec, execSkp, execSknp, execLdF, hide_cfg, getV_hide]
    cases nibbleOperand s.cfg (getV s x) <;> rfl
  case drw x y n =>
    simp only [exec, execDrw, hide_i]
    cases checkRange s.i n.val <;> rfl
  case ldB x =>
    simp only [exec, execLdB, hide_i]
    cases checkRange s.i 3 <;> rfl
  case storeRegs x | loadRegs x =>
    simp only [exec, execStoreRegs, execLoadRegs, hide_i]
    cases checkRange s.i (x.val + 1) <;> rfl
  all_goals rfl

/-- Settles O49: setting ST is a change that no instruction but FX18 sees. -/
theorem noInstructionReadsSt : Obligations.NoInstructionReadsSt := by
  intro i s b hi
  refine exec_hide i s (fun _ => b) id (fun x hx => ?_) (fun _ _ => rfl) (fun _ => rfl)
  subst hx
  cases hi

/-! ### Dead stack entries -/

/-- States that differ in dead entries only are one state with two stacks that agree below SP. -/
theorem sameButDead_iff (s t : State) :
    SameButDeadEntries s t ↔ ∃ st, t = setStack st s ∧ ∀ j : Fin 16, j.val < s.sp.val → st[j.val] = s.stack[j.val] := by
  constructor
  · rintro ⟨h, hj⟩
    refine ⟨t.stack, ?_, hj⟩
    rw [← h]
    rfl
  · rintro ⟨st, rfl, hj⟩
    exact ⟨rfl, hj⟩

theorem raise_sameButDead (kind : Fault) {s t : State} (h : SameButDeadEntries s t) :
    AnswersAgree SameButDeadEntries (raise kind s) (raise kind t) := by
  obtain ⟨st, rfl, hj⟩ := (sameButDead_iff s t).1 h
  exact ⟨rfl, hj⟩

theorem call_sameButDead (nnn : BitVec 12) {s t : State} (h : SameButDeadEntries s t) :
    AnswersAgree SameButDeadEntries (execCall nnn s) (execCall nnn t) := by
  obtain ⟨st, rfl, hj⟩ := (sameButDead_iff s t).1 h
  by_cases hsp : s.sp.val < 16
  · rw [execCall_eq nnn hsp, execCall_eq (s := setStack st s) nnn hsp]
    refine ⟨rfl, fun j hlt => ?_⟩
    simp only [setStack_stack, setStack_sp, setStack_pc, Vector.getElem_set]
    split
    · rfl
    · exact hj j (by simp only at hlt; omega)
  · have hsp : s.sp.val = 16 := by have := s.sp.isLt; omega
    rw [execCall_overflow nnn hsp, execCall_overflow (s := setStack st s) nnn hsp]
    exact raise_sameButDead _ h

theorem ret_sameButDead {s t : State} (h : SameButDeadEntries s t) :
    AnswersAgree SameButDeadEntries (execRet s) (execRet t) := by
  obtain ⟨st, rfl, hj⟩ := (sameButDead_iff s t).1 h
  by_cases hsp : s.sp.val = 0
  · rw [execRet_underflow hsp, execRet_underflow (s := setStack st s) hsp]
    exact raise_sameButDead _ h
  · have hlt : s.sp.val - 1 < 16 := by have := s.sp.isLt; omega
    have htop := hj ⟨s.sp.val - 1, hlt⟩ (by simp only; omega)
    rw [execRet_eq (by omega), execRet_eq (s := setStack st s) (by simp only [setStack_sp]; omega)]
    refine (sameButDead_iff _ _).2 ⟨st, ?_, fun j hlt => hj j (by simp only at hlt; omega)⟩
    simp only [setStack, htop]

/-- SP and the stack entries change by 2NNN and 00EE only (10_state.md R27, R28). -/
theorem exec_keepsStack {i : Instr} {s u : State} (hcall : ∀ nnn, i ≠ .call nnn) (hret : i ≠ .ret)
    (h : exec i s = .next u) : KeepsStack s u := by
  rcases exec_cases i s with ⟨kind, he, -⟩ | ⟨e, p, w, he, hw, -⟩
  · cases he.symm.trans h
    exact ⟨rfl, rfl⟩
  · cases he.symm.trans h
    cases hw
    case pop => exact absurd rfl hret
    case push nnn _ _ => exact absurd rfl (hcall nnn)
    all_goals exact ⟨rfl, rfl⟩

/-- Related states run an instruction to related states: 2NNN and 00EE touch live entries only, and the others see none. -/
theorem exec_sameButDead (i : Instr) {s t : State} (h : SameButDeadEntries s t) :
    AnswersAgree SameButDeadEntries (exec i s) (exec i t) := by
  by_cases hcall : ∃ nnn, i = .call nnn
  · obtain ⟨nnn, rfl⟩ := hcall
    exact call_sameButDead nnn h
  by_cases hret : i = .ret
  · subst hret
    exact ret_sameButDead h
  obtain ⟨st, rfl, hj⟩ := (sameButDead_iff s t).1 h
  have hmap : exec i (setStack st s) = mapNext (setStack st) (exec i s) :=
    exec_hide i s id (fun _ => st) (fun _ _ => rfl) (fun nnn hc => absurd ⟨nnn, hc⟩ hcall) (fun hc => absurd hc hret)
  obtain ⟨u, hu⟩ := exec_answers i s
  obtain ⟨hsp, hstack⟩ := exec_keepsStack (fun nnn hc => hcall ⟨nnn, hc⟩) hret hu
  rw [hmap, hu]
  refine (sameButDead_iff _ _).2 ⟨st, rfl, ?_⟩
  rwa [hsp, hstack]

/-- Settles O50: the latch, the fetch and the dispatch do not look at the stack, and a raised fault and the instruction keep the
relation. -/
theorem deadStackEntriesAreNeverSeen : Obligations.DeadStackEntriesAreNeverSeen := by
  intro s t h
  obtain ⟨st, rfl, -⟩ := (sameButDead_iff s t).1 h
  cases hl : s.fault with
  | some kp =>
    obtain ⟨kind, p⟩ := kp
    rw [step_latched hl, step_latched (s := setStack st s) hl]
    rfl
  | none =>
    cases hf : checkFetch s with
    | some kind =>
      rw [step_fetch_fault hl hf, step_fetch_fault (s := setStack st s) hl hf]
      exact raise_sameButDead kind h
    | none =>
      cases hd : decodeWord (fetchWord s) with
      | none =>
        rw [step_unknown hl hf hd, step_unknown (s := setStack st s) hl hf hd]
        exact raise_sameButDead _ h
      | some i =>
        rw [step_exec hl hf hd, step_exec (s := setStack st s) hl hf hd]
        exact exec_sameButDead i h

/-! ### Reset -/

theorem unlisted_outside_font {c : Params} {a : Nat} (h : a < c.fontBase.toNat ∨ c.fontBase.toNat + 80 ≤ a) :
    Memory.unlisted c a = 0 := by
  rw [Memory.unlisted, dif_neg (by omega)]

theorem unlisted_font (c : Params) (k : Fin 80) : Memory.unlisted c (c.fontBase.toNat + k.val) = c.fontData[k.val] := by
  have := k.isLt
  rw [Memory.unlisted, dif_pos (by omega)]
  simp only [Nat.add_sub_cancel_left]

/-- Settles O55: reset lists no byte of memory, so an address reads as the font says or 0; the other fields are computed. -/
theorem resetValues : Obligations.ResetValues := by
  refine ⟨rfl, by decide, rfl, rfl, by decide, rfl, rfl, by decide, getPixel_blankScreen, rfl, fun a ha => ?_, fun k => ?_⟩
  · exact unlisted_outside_font (c := Params.default) ha
  · exact unlisted_font Params.default k

end Sys2Proof.Machine
end

section
/-! PROOFS of the statements about memory (20_memory.md): a canonical memory is determined by what it reads as, and a step
fetches what the step before it stored. -/

namespace Sys2Proof.Machine

/-! ### The canonical form determines the data -/

theorem Memory.above_cons {d e : Nat} {v : Byte} {m : Memory} (hde : d < e) (h : Memory.above e m = true) :
    Memory.above d ((e, v) :: m) = true := by
  have htail := Memory.above_trans h hde
  rw [Memory.above] at htail ⊢
  simp only [List.all_cons, hde, htail, decide_true, Bool.and_true]

/-- The first entry of a canonical memory is seen: no memory whose entries all lie above its address reads alike there. -/
theorem Memory.read_head_ne {c : Params} {d : Nat} {u : Byte} {rest m : Memory}
    (h : Memory.wf c ((d, u) :: rest) = true) (hm : Memory.above d m = true) :
    Memory.read c ((d, u) :: rest) d ≠ Memory.read c m d := by
  obtain ⟨-, -, hu, -⟩ := (Memory.wf_cons c d u rest).1 h
  rwa [Memory.read_of_above hm, Memory.read, if_pos rfl]

/-- Memories that read alike and share their first address, which lies below the rest of both, have tails that read alike. -/
theorem Memory.read_tails {c : Params} {d : Nat} {u v : Byte} {m m' : Memory} (hm : Memory.above d m = true)
    (hm' : Memory.above d m' = true) {a : Nat} (h : Memory.read c ((d, u) :: m) a = Memory.read c ((d, v) :: m') a) :
    Memory.read c m a = Memory.read c m' a := by
  by_cases had : d = a
  · subst had
    rw [Memory.read_of_above hm, Memory.read_of_above hm']
  · rwa [Memory.read, Memory.read, if_neg had, if_neg had] at h

/-- Settles O41, by induction on the two lists: first entries at different addresses would be told apart by a read at the lower
one, so they are the same entry, and the tails read alike. -/
theorem canonicalMemoriesThatReadAlikeAreEqual : Obligations.CanonicalMemoriesThatReadAlikeAreEqual := by
  intro c m
  induction m with
  | nil =>
    intro m' _ hwf' hread
    cases m' with
    | nil => rfl
    | cons e' rest' =>
      obtain ⟨-, hlt', -, -⟩ := (Memory.wf_cons _ _ _ _).1 hwf'
      exact absurd (hread e'.1 hlt').symm (Memory.read_head_ne hwf' rfl)
  | cons e rest ih =>
    obtain ⟨d, u⟩ := e
    intro m' hwf hwf' hread
    obtain ⟨habove, hlt, -, hrest⟩ := (Memory.wf_cons _ _ _ _).1 hwf
    cases m' with
    | nil => exact absurd (hread d hlt) (Memory.read_head_ne hwf rfl)
    | cons e' rest' =>
      obtain ⟨d', u'⟩ := e'
      obtain ⟨habove', hlt', -, hrest'⟩ := (Memory.wf_cons _ _ _ _).1 hwf'
      rcases Nat.lt_trichotomy d d' with hdd | rfl | hdd
      · exact absurd (hread d hlt) (Memory.read_head_ne hwf (Memory.above_cons hdd habove'))
      · have hu : u = u' := by simpa only [Memory.read, if_true] using hread d hlt
        rw [hu, ih rest' hrest hrest' fun a ha => Memory.read_tails habove habove' (hread a ha)]
      · exact absurd (hread d' hlt').symm (Memory.read_head_ne hwf' (Memory.above_cons hdd habove))

/-! ### A step by the bytes at PC -/

/-- A step whose bytes at PC decode runs their instruction (30_encoding.md R90). -/
theorem step_of_decode_ok {s : State} {i : Instr} (hl : s.Live) (hf : checkFetch s = none)
    (hd : decode [readByte s s.pc.toNat, readByte s (s.pc.toNat + 1)] = .ok (i, [])) : step s = exec i s := by
  rw [decode_fetched] at hd
  cases hw : decodeWord (fetchWord s) with
  | none => simp only [hw, reduceCtorEq] at hd
  | some j =>
    simp only [hw, Except.ok.injEq, Prod.mk.injEq, and_true] at hd
    rw [step_exec hl hf hw, hd]

/-- A step whose bytes at PC are an unknown word raises `UnknownOpcode` (30_encoding.md R93). -/
theorem step_of_decode_unknown {s : State} {w : Word} (hl : s.Live) (hf : checkFetch s = none)
    (hd : decode [readByte s s.pc.toNat, readByte s (s.pc.toNat + 1)] = .error (.unknownOpcode w)) :
    Faults (step s) (.unknownOpcode w) s := by
  rw [decode_fetched] at hd
  cases hw : decodeWord (fetchWord s) with
  | some j => simp only [hw, reduceCtorEq] at hd
  | none =>
    simp only [hw, Except.error.injEq, Reject.unknownOpcode.injEq] at hd
    rw [step_unknown hl hf hw, hd]
    exact raise_eq _ s

/-! ### A store before a fetch -/

/-- The state after an instruction that stores `bytes` at I and completes: what FX33 and FX55 leave. -/
def stored (bytes : List Byte) (s : State) : State :=
  setResult (.ok .none) (setPc (nextPc s) (writeBytes s.i.toNat bytes s))

theorem exec_ldB_stored {s : State} (x : Reg) (h : s.i.toNat + (decimalDigits (getV s x)).length ≤ Config.memSize) :
    exec (.ldB x) s = .next (stored (decimalDigits (getV s x)) s) :=
  execLdB_eq x h

theorem exec_storeRegs_stored {s : State} (x : Reg) (h : s.i.toNat + (firstRegs s x).length ≤ Config.memSize) :
    exec (.storeRegs x) s = .next (stored (firstRegs s x) s) :=
  execStoreRegs_eq x (firstRegs_length s x ▸ h)

theorem stored_pc_toNat {s : State} (bytes : List Byte) (h : s.pc.toNat + 4 ≤ 4096) :
    (stored bytes s).pc.toNat = s.pc.toNat + 2 := by
  have h2 : BitVec.toNat (2 : Addr) = 2 := rfl
  simp only [stored, nextPc, setResult_pc, setPc_pc, BitVec.toNat_add]
  omega

theorem readByte_stored {s : State} {bytes : List Byte} (b : Nat) (h : s.i.toNat + bytes.length ≤ Config.memSize) :
    readByte (stored bytes s) b = byteAfter s s.i.toNat bytes b :=
  readByte_writeBytes s.i.toNat b bytes s h

/-- The instruction after a store can be fetched when the store's own PC is as aligned as a fetch needs. -/
theorem checkFetch_stored {s : State} (bytes : List Byte) (hpc : s.pc.toNat + 4 ≤ 4096)
    (hodd : s.pc.toNat % 2 = 0 ∨ s.cfg.allowOddPc = true) : checkFetch (stored bytes s) = none := by
  have hcfg : (stored bytes s).cfg = s.cfg := rfl
  rw [checkFetch_eq_none, stored_pc_toNat bytes hpc, hcfg, Nat.add_mod_right]
  exact ⟨show s.pc.toNat + 2 + 1 < 4096 by omega, hodd⟩

/-- Settles O40: FX33 and FX55 both lead to a `stored` state, which is live, can be fetched from, and reads as the store says. -/
theorem storedCodeIsFetchedNext : Obligations.StoredCodeIsFetchedNext := by
  intro s x st bytes hl hpc hodd hst hd hfit
  have hf : checkFetch s = none := (checkFetch_eq_none s).2 ⟨show s.pc.toNat + 1 < 4096 by omega, hodd⟩
  have hexec : exec st s = .next (stored bytes s) := by
    rcases hst with ⟨rfl, rfl⟩ | ⟨rfl, rfl⟩
    · exact exec_storeRegs_stored x hfit
    · exact exec_ldB_stored x hfit
  have hl' : (stored bytes s).Live := hl
  have hf' := checkFetch_stored bytes hpc hodd
  refine ⟨stored bytes s, (step_of_decode_ok hl hf hd).trans hexec, ?_⟩
  rw [← readByte_stored _ hfit, ← readByte_stored _ hfit, ← stored_pc_toNat bytes hpc,
    show s.pc.toNat + 3 = (stored bytes s).pc.toNat + 1 by rw [stored_pc_toNat bytes hpc]]
  exact ⟨fun i => step_of_decode_ok hl' hf', fun w => step_of_decode_unknown hl' hf'⟩

end Sys2Proof.Machine
end

section
/-! PROOFS of the statements about the encoding (30_encoding.md R70 to R80): what each mask keeps of a word is said once as a
number, so that a row's test is equations of numbers; the rows exclude each other, and each builds back what it matches. -/

namespace Sys2Proof

/-! ### Words and fields -/

/-- Settles O1: the search of the table, run on each of the words. -/
theorem wordsOfEachFamilyDecode : Obligations.WordsOfEachFamilyDecode := by
  unfold Obligations.WordsOfEachFamilyDecode
  decide

/-- Settles O2: each field's own equation. -/
theorem fieldsAreTheirBitRanges : Obligations.FieldsAreTheirBitRanges := fun w =>
  ⟨fieldsOf_o w, fieldsOf_x w, fieldsOf_y w, fieldsOf_n w, fieldsOf_nn w, fieldsOf_nnn w⟩

/-! ### The rows exclude each other -/

/-- Rows whose patterns differ under both masks match no word together. -/
theorem not_hits_both {r q : Row} (h : r.pattern &&& q.mask ≠ q.pattern &&& r.mask) (w : Word) :
    ¬ (r.hits w = true ∧ q.hits w = true) := by
  rintro ⟨hr, hq⟩
  apply h
  rw [← eq_of_beq hr, ← eq_of_beq hq, BitVec.and_assoc, BitVec.and_assoc, BitVec.and_comm r.mask]

theorem opcodeTable_exclusive :
    opcodeTable.Pairwise fun r q => ∀ w : Word, ¬ (r.hits w = true ∧ q.hits w = true) := by
  have hmasks : opcodeTable.Pairwise fun r q => r.pattern &&& q.mask ≠ q.pattern &&& r.mask := by decide
  exact hmasks.imp not_hits_both

/-- Settles O5: the 33 patterns differ pairwise under the masks that a word would have to meet together. -/
theorem noWordMatchesTwoRows : Obligations.NoWordMatchesTwoRows :=
  ⟨rfl, opcodeTable_exclusive⟩

/-! ### Decoding an encoded instruction -/

/-- A word that matches a row of the table decodes to that row's instruction (30_encoding.md R78). -/
theorem decodeWord_of_hits {r : Row} (hr : r ∈ opcodeTable) {w : Word} (h : r.hits w = true) :
    decodeWord w = some (r.build (fieldsOf w)) := by
  rw [decodeWord, find_row opcodeTable_exclusive hr h]

/-- Every instruction has its row. -/
theorem rowMatch (i : Instr) : Laws.RowMatch.Statement i := by
  cases i with
  | cls => exact Laws.RowMatch.cls
  | ret => exact Laws.RowMatch.ret
  | jp nnn => exact Laws.RowMatch.jp nnn
  | call nnn => exact Laws.RowMatch.call nnn
  | seImm x nn => exact Laws.RowMatch.seImm x nn
  | sneImm x nn => exact Laws.RowMatch.sneImm x nn
  | seReg x y => exact Laws.RowMatch.seReg x y
  | ldImm x nn => exact Laws.RowMatch.ldImm x nn
  | addImm x nn => exact Laws.RowMatch.addImm x nn
  | ldReg x y => exact Laws.RowMatch.ldReg x y
  | orReg x y => exact Laws.RowMatch.orReg x y
  | andReg x y => exact Laws.RowMatch.andReg x y
  | xorReg x y => exact Laws.RowMatch.xorReg x y
  | addReg x y => exact Laws.RowMatch.addReg x y
  | subReg x y => exact Laws.RowMatch.subReg x y
  | shr x y => exact Laws.RowMatch.shr x y
  | subnReg x y => exact Laws.RowMatch.subnReg x y
  | shl x y => exact Laws.RowMatch.shl x y
  | sneReg x y => exact Laws.RowMatch.sneReg x y
  | ldI nnn => exact Laws.RowMatch.ldI nnn
  | jpV0 nnn => exact Laws.RowMatch.jpV0 nnn
  | rnd x nn => exact Laws.RowMatch.rnd x nn
  | drw x y n => exact Laws.RowMatch.drw x y n
  | skp x => exact Laws.RowMatch.skp x
  | sknp x => exact Laws.RowMatch.sknp x
  | ldVxDt x => exact Laws.RowMatch.ldVxDt x
  | ldDtVx x => exact Laws.RowMatch.ldDtVx x
  | ldStVx x => exact Laws.RowMatch.ldStVx x
  | addI x => exact Laws.RowMatch.addI x
  | ldF x => exact Laws.RowMatch.ldF x
  | ldB x => exact Laws.RowMatch.ldB x
  | storeRegs x => exact Laws.RowMatch.storeRegs x
  | loadRegs x => exact Laws.RowMatch.loadRegs x

theorem decodeWord_encode (i : Instr) : decodeWord (encode i) = some i := by
  obtain ⟨r, hr, hhits, hbuild⟩ := rowMatch i
  rw [decodeWord_of_hits hr hhits, hbuild]

theorem decode_bytesOfWord {w : Word} {i : Instr} (h : decodeWord w = some i) (rest : List Byte) :
    decode (bytesOfWord w ++ rest) = .ok (i, rest) := by
  show decode (w.extractLsb' 8 8 :: w.extractLsb' 0 8 :: rest) = _
  simp only [decode_two, wordOfBytes_bytes, h]

/-- Settles O3: the instruction's word matches its row, and no other row, and that row builds it back. -/
theorem decodeInvertsEncode : Obligations.DecodeInvertsEncode := fun i =>
  decode_bytesOfWord (decodeWord_encode i)

/-! ### The masks as numbers -/

theorem wordA_fieldsOf (w : Word) : wordA (fieldsOf w).o (fieldsOf w).nnn = w := by
  apply BitVec.eq_of_toNat_eq
  rw [wordA_toNat, fieldsOf_o, fieldsOf_nnn]
  omega

theorem wordXNN_fieldsOf (w : Word) : wordXNN (fieldsOf w).o (fieldsOf w).x (fieldsOf w).nn = w := by
  apply BitVec.eq_of_toNat_eq
  rw [wordXNN_toNat, fieldsOf_o, fieldsOf_x, fieldsOf_nn]
  omega

theorem wordXYN_fieldsOf (w : Word) :
    wordXYN (fieldsOf w).o (fieldsOf w).x (fieldsOf w).y (nibble (fieldsOf w).n) = w := by
  apply BitVec.eq_of_toNat_eq
  rw [wordXYN_toNat, nibble_toNat, fieldsOf_o, fieldsOf_x, fieldsOf_y, fieldsOf_n]
  omega

theorem mask_high_toNat (w : Word) : (w &&& 0xF000).toNat = w.toNat / 4096 * 4096 := by
  rw [← fieldsOf_o]
  nth_rw 1 [← wordA_fieldsOf w]
  rw [wordA_mask, append_toNat]
  simp

theorem mask_byte_toNat (w : Word) : (w &&& 0xF0FF).toNat = w.toNat / 4096 * 4096 + w.toNat % 256 := by
  rw [← fieldsOf_o, ← fieldsOf_nn]
  nth_rw 1 [← wordXNN_fieldsOf w]
  rw [wordXNN_mask_byte, append_toNat, append_toNat]
  simp

theorem mask_digit_toNat (w : Word) : (w &&& 0xF00F).toNat = w.toNat / 4096 * 4096 + w.toNat % 16 := by
  rw [← fieldsOf_o, ← fieldsOf_n]
  nth_rw 1 [← wordXYN_fieldsOf w]
  rw [wordXYN_mask_digit, append_toNat, append_toNat, append_toNat, nibble_toNat]
  simp

/-! ### A row's test as equations of numbers -/

theorem Row.hits_iff (r : Row) (w : Word) : r.hits w = true ↔ (w &&& r.mask).toNat = r.pattern.toNat := by
  rw [Row.hits, beq_iff_eq, BitVec.toNat_eq]

section
variable {p w : Word} {build : Fields → Instr}

theorem hits_whole : Row.hits ⟨p, 0xFFFF, build⟩ w = true ↔ w = p := by
  rw [Row.hits, beq_iff_eq, show w &&& 0xFFFF = w from BitVec.and_allOnes]

theorem hits_high (hp : p.toNat % 4096 = 0) :
    Row.hits ⟨p, 0xF000, build⟩ w = true ↔ w.toNat / 4096 = p.toNat / 4096 := by
  rw [Row.hits_iff, mask_high_toNat]
  dsimp only
  omega

theorem hits_byte (hp : p.toNat % 4096 < 256) :
    Row.hits ⟨p, 0xF0FF, build⟩ w = true ↔ w.toNat / 4096 = p.toNat / 4096 ∧ w.toNat % 256 = p.toNat % 256 := by
  rw [Row.hits_iff, mask_byte_toNat]
  dsimp only
  omega

theorem hits_digit (hp : p.toNat % 4096 < 16) :
    Row.hits ⟨p, 0xF00F, build⟩ w = true ↔ w.toNat / 4096 = p.toNat / 4096 ∧ w.toNat % 16 = p.toNat % 16 := by
  rw [Row.hits_iff, mask_digit_toNat]
  dsimp only
  omega

end

/-! ### Encoding a decoded instruction -/

/-- The instruction a row builds from a word it matches encodes to that word: the row drops no bit. -/
def Row.Inverts (r : Row) : Prop := ∀ w : Word, r.hits w = true → encode (r.build (fieldsOf w)) = w

section
variable {p : Word} {o : BitVec 4} {build : Fields → Instr}

theorem fields_of_hits_high {w : Word} (hp : p.toNat = o.toNat * 4096)
    (hw : Row.hits ⟨p, 0xF000, build⟩ w = true) : (fieldsOf w).o = o := by
  have ho := (hits_high (by omega)).1 hw
  apply BitVec.eq_of_toNat_eq
  rw [fieldsOf_o]
  omega

theorem fields_of_hits_digit {d : BitVec 4} {w : Word} (hp : p.toNat = o.toNat * 4096 + d.toNat)
    (hw : Row.hits ⟨p, 0xF00F, build⟩ w = true) : (fieldsOf w).o = o ∧ nibble (fieldsOf w).n = d := by
  have hd := d.isLt
  obtain ⟨ho, hn⟩ := (hits_digit (by omega)).1 hw
  constructor <;> apply BitVec.eq_of_toNat_eq
  · rw [fieldsOf_o]
    omega
  · rw [nibble_toNat, fieldsOf_n]
    omega

theorem fields_of_hits_byte {b : Byte} {w : Word} (hp : p.toNat = o.toNat * 4096 + b.toNat)
    (hw : Row.hits ⟨p, 0xF0FF, build⟩ w = true) : (fieldsOf w).o = o ∧ (fieldsOf w).nn = b := by
  have hb := b.isLt
  obtain ⟨ho, hn⟩ := (hits_byte (by omega)).1 hw
  constructor <;> apply BitVec.eq_of_toNat_eq
  · rw [fieldsOf_o]
    omega
  · rw [fieldsOf_nn]
    omega

theorem inverts_whole {i : Instr} (h : encode i = p) : Row.Inverts ⟨p, 0xFFFF, fun _ => i⟩ := by
  intro w hw
  rw [h, hits_whole.1 hw]

theorem inverts_A (h : ∀ f, encode (build f) = wordA o f.nnn) (hp : p.toNat = o.toNat * 4096) :
    Row.Inverts ⟨p, 0xF000, build⟩ := by
  intro w hw
  rw [h, ← fields_of_hits_high hp hw, wordA_fieldsOf]

theorem inverts_XNN (h : ∀ f, encode (build f) = wordXNN o f.x f.nn) (hp : p.toNat = o.toNat * 4096) :
    Row.Inverts ⟨p, 0xF000, build⟩ := by
  intro w hw
  rw [h, ← fields_of_hits_high hp hw, wordXNN_fieldsOf]

theorem inverts_XYN (h : ∀ f, encode (build f) = wordXYN o f.x f.y (nibble f.n)) (hp : p.toNat = o.toNat * 4096) :
    Row.Inverts ⟨p, 0xF000, build⟩ := by
  intro w hw
  rw [h, ← fields_of_hits_high hp hw, wordXYN_fieldsOf]

theorem inverts_XY {d : BitVec 4} (h : ∀ f, encode (build f) = wordXYN o f.x f.y d)
    (hp : p.toNat = o.toNat * 4096 + d.toNat) : Row.Inverts ⟨p, 0xF00F, build⟩ := by
  intro w hw
  obtain ⟨ho, hd⟩ := fields_of_hits_digit hp hw
  rw [h, ← ho, ← hd, wordXYN_fieldsOf]

theorem inverts_XF {b : Byte} (h : ∀ f, encode (build f) = wordXNN o f.x b)
    (hp : p.toNat = o.toNat * 4096 + b.toNat) : Row.Inverts ⟨p, 0xF0FF, build⟩ := by
  intro w hw
  obtain ⟨ho, hb⟩ := fields_of_hits_byte hp hw
  rw [h, ← ho, ← hb, wordXNN_fieldsOf]

end

theorem rows0_invert : ∀ r ∈ rows0, r.Inverts := by
  simp only [rows0, List.forall_mem_cons]
  exact ⟨inverts_whole rfl, inverts_whole rfl, inverts_A (fun _ => rfl) rfl, inverts_A (fun _ => rfl) rfl,
    inverts_XNN (fun _ => rfl) rfl, inverts_XNN (fun _ => rfl) rfl, inverts_XY (fun _ => rfl) rfl,
    inverts_XNN (fun _ => rfl) rfl, inverts_XNN (fun _ => rfl) rfl, List.forall_mem_nil _⟩

theorem rows8_invert : ∀ r ∈ rows8, r.Inverts := by
  simp only [rows8, List.forall_mem_cons]
  refine ⟨?_, ?_, ?_, ?_, ?_, ?_, ?_, ?_, ?_, List.forall_mem_nil _⟩ <;> exact inverts_XY (fun _ => rfl) rfl

theorem rows9_invert : ∀ r ∈ rows9, r.Inverts := by
  simp only [rows9, List.forall_mem_cons]
  exact ⟨inverts_XY (fun _ => rfl) rfl, inverts_A (fun _ => rfl) rfl, inverts_A (fun _ => rfl) rfl,
    inverts_XNN (fun _ => rfl) rfl, inverts_XYN (fun _ => rfl) rfl, inverts_XF (fun _ => rfl) rfl,
    inverts_XF (fun _ => rfl) rfl, List.forall_mem_nil _⟩

theorem rowsF_invert : ∀ r ∈ rowsF, r.Inverts := by
  simp only [rowsF, List.forall_mem_cons]
  refine ⟨?_, ?_, ?_, ?_, ?_, ?_, ?_, ?_, List.forall_mem_nil _⟩ <;> exact inverts_XF (fun _ => rfl) rfl

theorem opcodeTable_inverts {r : Row} (hr : r ∈ opcodeTable) : r.Inverts := by
  simp only [opcodeTable, List.mem_append] at hr
  obtain ((h | h) | h) | h := hr
  · exact rows0_invert r h
  · exact rows8_invert r h
  · exact rows9_invert r h
  · exact rowsF_invert r h

/-- What decodes comes from a row of the table that the word matches. -/
theorem decodeWord_eq_some {w : Word} {i : Instr} (h : decodeWord w = some i) :
    ∃ r ∈ opcodeTable, r.hits w = true ∧ r.build (fieldsOf w) = i := by
  unfold decodeWord at h
  split at h
  · rename_i r hr
    exact ⟨r, List.mem_of_find?_eq_some hr, List.find?_some (p := fun q : Row => q.hits w) hr, Option.some.inj h⟩
  · cases h

theorem encode_of_decodeWord {w : Word} {i : Instr} (h : decodeWord w = some i) : encode i = w := by
  obtain ⟨r, hr, hhits, rfl⟩ := decodeWord_eq_some h
  exact opcodeTable_inverts hr w hhits

theorem bytesOfWord_wordOfBytes (hi lo : Byte) : bytesOfWord (wordOfBytes hi lo) = [hi, lo] := by
  have hlo := lo.isLt
  have hhi := hi.isLt
  have hhigh : (wordOfBytes hi lo).extractLsb' 8 8 = hi := by
    apply BitVec.eq_of_toNat_eq
    rw [BitVec.extractLsb'_toNat, wordOfBytes_toNat, Nat.shiftRight_eq_div_pow]
    omega
  have hlow : (wordOfBytes hi lo).extractLsb' 0 8 = lo := by
    apply BitVec.eq_of_toNat_eq
    rw [BitVec.extractLsb'_toNat, wordOfBytes_toNat, Nat.shiftRight_zero]
    omega
  rw [bytesOfWord, hhigh, hlow]

/-- Settles O4: only two bytes or more decode, and the row that matches their word drops no bit of it. -/
theorem encodeInvertsDecode : Obligations.EncodeInvertsDecode := by
  intro bytes rest i h
  match bytes with
  | [] => cases h
  | [_] => cases h
  | hi :: lo :: tail =>
    rw [decode_two] at h
    split at h
    · rename_i j hj
      cases h
      rw [encodeBytes, encode_of_decodeWord hj, bytesOfWord_wordOfBytes]
      rfl
    · cases h

/-! ### The unknown words (30_encoding.md R79) -/

theorem decodeWord_eq_none (w : Word) : decodeWord w = none ↔ ∀ r ∈ opcodeTable, ¬ r.hits w = true := by
  rw [← List.find?_eq_none, decodeWord]
  split <;> simp [*]

theorem no_row0_hits (w : Word) : (∀ r ∈ rows0, ¬ r.hits w = true) ↔
    w ≠ 0x00E0 ∧ w ≠ 0x00EE ∧ w.toNat / 4096 ∉ [1, 2, 3, 4] ∧ (w.toNat / 4096 = 5 → w.toNat % 16 ≠ 0) ∧
    w.toNat / 4096 ∉ [6, 7] := by
  simp (disch := decide) only [rows0, List.forall_mem_cons, hits_whole, hits_high, hits_digit]
  simp [and_assoc]

/-- The digits that no row of the family 8 takes. -/
theorem free_digit_iff {n : Nat} (h : n < 16) :
    n ∉ [0, 1, 2, 3, 4, 5, 6, 7, 0xE] ↔ n ∈ [8, 9, 0xA, 0xB, 0xC, 0xD, 0xF] := by
  decide +revert

theorem no_row8_hits (w : Word) : (∀ r ∈ rows8, ¬ r.hits w = true) ↔
    (w.toNat / 4096 = 8 → w.toNat % 16 ∈ [8, 9, 0xA, 0xB, 0xC, 0xD, 0xF]) := by
  rw [← free_digit_iff (Nat.mod_lt _ (by decide))]
  simp (disch := decide) only [rows8, List.forall_mem_cons, hits_digit]
  simp [imp_and]

theorem no_row9_hits (w : Word) : (∀ r ∈ rows9, ¬ r.hits w = true) ↔
    (w.toNat / 4096 = 9 → w.toNat % 16 ≠ 0) ∧ w.toNat / 4096 ∉ [0xA, 0xB, 0xC, 0xD] ∧
    (w.toNat / 4096 = 0xE → w.toNat % 256 ∉ [0x9E, 0xA1]) := by
  simp (disch := decide) only [rows9, List.forall_mem_cons, hits_high, hits_digit, hits_byte]
  simp [imp_and, and_assoc]

theorem no_rowF_hits (w : Word) : (∀ r ∈ rowsF, ¬ r.hits w = true) ↔
    (w.toNat / 4096 = 0xF → w.toNat % 256 ∉ [0x07, 0x15, 0x18, 0x1E, 0x29, 0x33, 0x55, 0x65]) := by
  simp (disch := decide) only [rowsF, List.forall_mem_cons, hits_byte]
  simp [imp_and]

/-- Settles O6, by the opcode nibble: each family's rows leave the words of its range, and the families that take every word
leave none. -/
theorem unknownWordsAreTheListedRanges : Obligations.UnknownWordsAreTheListedRanges := by
  intro w
  have hnibble : w.toNat / 4096 < 16 := by omega
  have hfamily0 : w.toNat < 0x1000 ↔ w.toNat / 4096 = 0 := by omega
  have hcls : w = 0x00E0 → w.toNat / 4096 = 0 := by rintro rfl; rfl
  have hret : w = 0x00EE → w.toNat / 4096 = 0 := by rintro rfl; rfl
  rw [decodeWord_eq_none, hfamily0]
  simp only [opcodeTable, List.forall_mem_append, no_row0_hits, no_row8_hits, no_row9_hits, no_rowF_hits]
  generalize w.toNat / 4096 = o at hnibble hcls hret ⊢
  interval_cases o <;> simp_all

end Sys2Proof
end

section
/-! PROOFS of the statements about the step cycle (30_encoding.md R90 to R98), about what a step reports, and about the field Y
of a shift. -/

namespace Sys2Proof.Machine

/-! ### The fetch -/

/-- A PC that cannot be fetched from makes the step of a live core fault (30_encoding.md R91, R92). -/
theorem step_of_unfetchable {s : State} (hl : s.Live)
    (h : ¬ (s.pc.toNat + 1 < 4096 ∧ (s.pc.toNat % 2 = 0 ∨ s.cfg.allowOddPc = true))) :
    ∃ kind, checkFetch s = some kind ∧ Faults (step s) kind s := by
  cases hf : checkFetch s with
  | none => exact absurd ((checkFetch_eq_none s).1 hf) h
  | some kind => exact ⟨kind, rfl, (step_fetch_fault hl hf).trans (raise_eq kind s)⟩

/-- Settles O7: the fetch check passes, and the step runs what the two bytes decode to. -/
theorem stepRunsTheDecodedInstruction : Obligations.StepRunsTheDecodedInstruction := by
  intro s i hl hpc hodd hd
  exact step_of_decode_ok hl ((checkFetch_eq_none s).2 ⟨hpc, hodd⟩) hd

/-- Settles O8: the fetch check passes, and the two bytes are an unknown word. -/
theorem stepFaultsOnUnknownWord : Obligations.StepFaultsOnUnknownWord := by
  intro s w hl hpc hodd hd
  exact step_of_decode_unknown hl ((checkFetch_eq_none s).2 ⟨hpc, hodd⟩) hd

/-- Settles O9: such a PC cannot be fetched from, and of the three ways the fetch check fails it leaves one. -/
theorem fetchOutsideMemoryFaults : Obligations.FetchOutsideMemoryFaults := by
  intro s hl
  constructor
  · intro hpc
    obtain ⟨kind, hf, hfaults⟩ := step_of_unfetchable hl (by omega)
    obtain ⟨-, rfl⟩ | ⟨hlast, -⟩ | ⟨hlow, -⟩ := checkFetch_fault hf
    · exact hfaults
    · omega
    · omega
  · intro hpc
    obtain ⟨kind, hf, hfaults⟩ := step_of_unfetchable hl (by omega)
    obtain ⟨hhigh, -⟩ | ⟨-, rfl⟩ | ⟨hlow, -⟩ := checkFetch_fault hf
    · exact absurd hhigh (by rw [hpc]; decide)
    · exact hfaults
    · omega

/-- Settles O10: the same, and the PC in range leaves only the alignment. -/
theorem fetchAtOddPcFaults : Obligations.FetchAtOddPcFaults := by
  intro s hl hpc hodd hcfg
  obtain ⟨kind, hf, hfaults⟩ := step_of_unfetchable hl (by simp [hodd, hcfg])
  obtain ⟨hhigh, -⟩ | ⟨hlast, -⟩ | ⟨-, -, -, rfl⟩ := checkFetch_fault hf
  · have hhigh : 4096 ≤ s.pc.toNat := hhigh
    omega
  · omega
  · exact hfaults

/-- Settles O11: the latch is looked at first. -/
theorem latchedCoreRepeatsItsFault : Obligations.LatchedCoreRepeatsItsFault := by
  intro s kind p h
  refine ⟨step_latched h, ?_⟩
  rw [hostCall, step_latched h]

/-! ### How a step ends -/

/-- The step of a live core raises a fault that fits the state, or completes with the latch clear. -/
theorem step_ends {s : State} (hl : s.Live) :
    (∃ kind, step s = raise kind s ∧ FaultFits kind s) ∨ (∃ e u, step s = complete e u ∧ u.Live) := by
  cases hf : checkFetch s with
  | some kind => exact .inl ⟨kind, step_fetch_fault hl hf, checkFetch_fits hf⟩
  | none =>
    cases hd : decodeWord (fetchWord s) with
    | none => exact .inl ⟨_, step_unknown hl hf hd, hd⟩
    | some i =>
      rw [step_exec hl hf hd]
      rcases exec_cases i s with hraise | ⟨e, p, u, he, hw, -⟩
      · exact .inl hraise
      · exact .inr ⟨e, setPc p u, he, hw.fault.trans hl⟩

/-- Settles O12: a raised fault writes the latch and the returned value, and a completed step has a clear latch. -/
theorem faultingStepWritesOnlyTheLatch : Obligations.FaultingStepWritesOnlyTheLatch := by
  intro s t hl ht
  rcases step_ends hl with ⟨kind, hs, -⟩ | ⟨e, u, hs, hu⟩
  · cases hs.symm.trans ht
    constructor
    · rintro k ⟨⟩
      rfl
    · rintro e ⟨⟩
  · cases hs.symm.trans ht
    constructor
    · rintro k ⟨⟩
    · exact fun _ _ => hu

/-- Settles O14: a step ends one way or the other, and `RegisterIndexInvariant` fits no state. -/
theorem liveCoreAlwaysSteps : Obligations.LiveCoreAlwaysSteps := by
  intro s hl
  rcases step_ends hl with ⟨kind, hs, hk⟩ | ⟨e, u, hs, hu⟩
  · refine ⟨_, hs, .inr ⟨kind, rfl, rfl, ?_⟩⟩
    rintro rfl
    exact hk
  · exact ⟨_, hs, .inl ⟨hu, e, rfl⟩⟩

/-! ### What a step reports -/

/-- An instruction other than 00E0 and DXYN raises a fault or completes reporting no cells, and leaves the framebuffer. -/
theorem exec_reports_none {i : Instr} (hcls : i ≠ .cls) (hdrw : ∀ x y n, i ≠ .drw x y n) (s : State) :
    (∃ kind, exec i s = raise kind s) ∨ (∃ u, exec i s = complete .none u ∧ u.fb = s.fb) := by
  cases i
  case cls => exact absurd rfl hcls
  case drw x y n => exact absurd rfl (hdrw x y n)
  case ret =>
    by_cases h : s.sp.val = 0
    · exact .inl ⟨_, execRet_underflow h⟩
    · rw [exec, execRet, pop_eq s (by omega)]
      exact .inr ⟨_, rfl, rfl⟩
  case call nnn =>
    by_cases h : s.sp.val = 16
    · exact .inl ⟨_, execCall_overflow nnn h⟩
    · rw [exec, execCall, push_eq _ s (by omega)]
      exact .inr ⟨_, rfl, rfl⟩
  case skp x | sknp x | ldF x | ldB x | storeRegs x | loadRegs x =>
    simp only [exec, execSkp, execSknp, execLdF, execLdB, execStoreRegs, execLoadRegs]
    split
    · exact .inl ⟨_, rfl⟩
    · exact .inr ⟨_, rfl, rfl⟩
  all_goals exact .inr ⟨_, rfl, rfl⟩

/-- 00E0 changes the cells that were on. -/
theorem mem_litCells_iff_cleared (f : Framebuffer) (p : Pixel) :
    p ∈ litCells f ↔ getPixel blankScreen p ≠ getPixel f p := by
  rw [mem_litCells, getPixel_blankScreen]
  cases getPixel f p <;> decide

/-- DXYN changes the cells its pixels fall on. -/
theorem mem_drawnPixels_iff_changed (x y : Reg) (n : Fin 16) (s : State) (p : Pixel) :
    p ∈ (drawnPixels x y n s).map wrapPixel ↔ getPixel (drawn x y n s).fb p ≠ getPixel s.fb p := by
  have hfb : (drawn x y n s).fb = (toggleAll (drawnPixels x y n s) s.fb).1 := rfl
  rw [hfb, (toggleAll_spec _ s.fb (drawnPixels_nodup x y n s)).1 p]
  split <;> simp [*]

/-- The report of `t` is what instruction `i` did to the framebuffer of `s` (30_encoding.md R96). -/
def ReportFits (i : Instr) (s t : State) : Prop :=
  (∀ cells col, t.result = .ok (.toggled cells col) →
    (i = .cls ∨ (i matches .drw ..) = true) ∧ cells.Nodup ∧ ∀ p, p ∈ cells ↔ getPixel t.fb p ≠ getPixel s.fb p) ∧
  (t.result = .ok .none → i ≠ .cls ∧ (i matches .drw ..) = false ∧ t.fb = s.fb)

theorem reportFits_of_fault {i : Instr} {s t : State} {kind : Fault} (h : t.result = .fault kind) :
    ReportFits i s t := by
  simp [ReportFits, h]

theorem reportFits_cls {s t : State} (ht : exec .cls s = .next t) : ReportFits .cls s t := by
  cases ht
  constructor
  · rintro cells col ⟨⟩
    exact ⟨.inl rfl, litCells_nodup s.fb, mem_litCells_iff_cleared s.fb⟩
  · rintro ⟨⟩

theorem reportFits_drw {x y : Reg} {n : Fin 16} {s t : State} (ht : exec (.drw x y n) s = .next t) :
    ReportFits (.drw x y n) s t := by
  cases hc : checkRange s.i n.val with
  | some kind =>
    rw [exec, execDrw, hc] at ht
    cases ht
    exact reportFits_of_fault rfl
  | none =>
    cases (execDrw_eq x y n ((checkRange_eq_none _ _).1 hc)).symm.trans ht
    constructor
    · rintro cells col ⟨⟩
      exact ⟨.inr rfl, drawnPixels_nodup x y n s, mem_drawnPixels_iff_changed x y n s⟩
    · rintro ⟨⟩

theorem reportFits_other {i : Instr} (hcls : i ≠ .cls) (hdrw : ∀ x y n, i ≠ .drw x y n) {s t : State}
    (ht : exec i s = .next t) : ReportFits i s t := by
  rcases exec_reports_none hcls hdrw s with ⟨kind, he⟩ | ⟨u, he, hfb⟩
  · cases he.symm.trans ht
    exact reportFits_of_fault rfl
  · cases he.symm.trans ht
    constructor
    · rintro cells col ⟨⟩
    · intro _
      refine ⟨hcls, ?_, hfb⟩
      split
      · exact absurd rfl (hdrw _ _ _)
      · rfl

/-- Settles O47: 00E0 reports the cells that were on, DXYN the cells its pixels fall on, and no other instruction reports cells
or changes one. -/
theorem reportNamesTheChangedCells : Obligations.ReportNamesTheChangedCells := by
  intro i s t ht
  cases i with
  | cls => exact reportFits_cls ht
  | drw x y n => exact reportFits_drw ht
  | _ => exact reportFits_other (by nofun) (by nofun) ht

/-! ### The shifts -/

/-- A result and a flag that are the same bytes before and after a write to V[y] leave the same V[x] and VF. -/
theorem advance_flag_result_setV (x y : Reg) (b r flag : Byte) (s : State) :
    ∃ t u, advance (setFlagThenResult x r flag s) = .next t ∧
      advance (setFlagThenResult x r flag (setV y b s)) = .next u ∧
      getV u x = getV t x ∧ getV u 15 = getV t 15 := by
  refine ⟨_, _, rfl, rfl, ?_, ?_⟩
  · simp [getV_setFlagThenResult]
  · simp [getV_setFlagThenResult, vf]

/-- Settles O31: the field Y is in no meaning's right-hand side, and V[X] is the same after a write to another register. -/
theorem shiftsDoNotReadY : Obligations.ShiftsDoNotReadY := by
  intro s x y z b
  refine ⟨rfl, rfl, fun h => ?_, fun h => ?_⟩
  · simp only [exec, execShr, getV_setV_other h]
    exact advance_flag_result_setV x y b _ _ s
  · simp only [exec, execShl, getV_setV_other h]
    exact advance_flag_result_setV x y b _ _ s

end Sys2Proof.Machine
end

section
/-! PROOFS of the statements about control transfer (41_control_flow.md). The state a jump, a call and a return leave is written
out once; a nest of calls and returns ends where it began (`BackIn`), by induction on the nest. -/

namespace Sys2Proof.Machine

/-! ### What a transfer of control leaves alone -/

theorem keepsAllButPc_setPc (p : Addr) (r : StepResult) (s : State) :
    KeepsAllButPc s { s with pc := p, result := r } :=
  ⟨fun _ => rfl, rfl, fun _ => rfl, ⟨rfl, rfl⟩, ⟨rfl, rfl⟩, fun _ => rfl, rfl, rfl, rfl⟩

/-- A call or a return writes PC, SP, the stack and what the step returns, so it keeps the rest. -/
theorem keepsRest_of_transfer (p : Addr) (n : Fin 17) (st : Vector Addr 16) (r : StepResult) (s : State) :
    let t : State := { s with pc := p, sp := n, stack := st, result := r }
    KeepsRegs s t ∧ t.i = s.i ∧ KeepsMemory s t ∧ KeepsTimers s t ∧ KeepsScreen s t ∧ KeepsOutside s t :=
  ⟨fun _ => rfl, rfl, fun _ => rfl, ⟨rfl, rfl⟩, fun _ => rfl, rfl, rfl, rfl⟩

/-! ### Jumps -/

/-- Settles O15: the zero-extended address is the address. -/
theorem jumpGoesToItsAddress : Obligations.JumpGoesToItsAddress := fun s nnn =>
  ⟨_, jumpTo_eq (zextAddr nnn) s, zextAddr_toNat nnn, keepsAllButPc_setPc _ _ s⟩

/-- The sum of a zero-extended byte and a zero-extended address stays below 65536 (41_control_flow.md R106). -/
theorem zextByte_add_zextAddr_toNat (b : Byte) (nnn : BitVec 12) :
    (zextByte b + zextAddr nnn).toNat = b.toNat + nnn.toNat := by
  have := b.isLt
  have := nnn.isLt
  rw [BitVec.toNat_add, zextByte_toNat, zextAddr_toNat]
  omega

/-- Settles O16: the sum does not wrap. -/
theorem jumpWithOffsetAddsV0 : Obligations.JumpWithOffsetAddsV0 := fun s nnn =>
  ⟨_, jumpTo_eq (zextByte (getV s 0) + zextAddr nnn) s, zextByte_add_zextAddr_toNat _ nnn, keepsAllButPc_setPc _ _ s⟩

/-! ### One call, one return -/

/-- The state a call leaves when the stack has room (41_control_flow.md R104). -/
def called (nnn : BitVec 12) (s : State) (h : s.sp.val < 16) : State :=
  { s with
    stack := s.stack.set s.sp.val (s.pc + 2), sp := ⟨s.sp.val + 1, by omega⟩,
    pc := zextAddr nnn, result := .ok .none }

theorem exec_call_eq_called (nnn : BitVec 12) {s : State} (h : s.sp.val < 16) :
    exec (.call nnn) s = .next (called nnn s h) := execCall_eq nnn h

theorem exec_call_faults (nnn : BitVec 12) {s : State} (h : s.sp.val = 16) :
    Faults (exec (.call nnn) s) .stackOverflow s := execCall_overflow nnn h

/-- The stack after a call holds the return address at the old SP, and else what it held. -/
theorem called_stack (nnn : BitVec 12) {s : State} (h : s.sp.val < 16) (j : Fin 16) :
    (called nnn s h).stack[j.val] = if j.val = s.sp.val then s.pc + 2 else s.stack[j.val] := by
  simp only [called, Vector.getElem_set, eq_comm (a := s.sp.val)]

/-- Settles O17: a call with room leaves `called`, and one without overflows. -/
theorem callPushesTheReturnAddress : Obligations.CallPushesTheReturnAddress := fun s nnn =>
  ⟨fun h => ⟨_, exec_call_eq_called nnn h, zextAddr_toNat nnn, rfl, called_stack nnn h, keepsRest_of_transfer _ _ _ _ s⟩,
    exec_call_faults nnn⟩

/-- The state a return leaves when entry `j` is the top one (41_control_flow.md R100). -/
def returned (j : Fin 16) (s : State) : State :=
  { s with pc := s.stack[j.val], sp := j.castSucc, result := .ok .none }

theorem exec_ret_eq_returned {s : State} {j : Fin 16} (h : s.sp.val = j.val + 1) :
    exec .ret s = .next (returned j s) := by
  have hj : s.sp.val - 1 = j.val := by omega
  refine (execRet_eq (by omega)).trans ?_
  simp only [hj]
  rfl

/-- Settles O18: a return with an entry leaves `returned`, and one without underflows. -/
theorem returnPopsTheReturnAddress : Obligations.ReturnPopsTheReturnAddress := fun s =>
  ⟨fun _ h => ⟨_, exec_ret_eq_returned h, rfl, rfl, rfl, keepsRest_of_transfer _ _ _ _ s⟩,
    fun h => execRet_underflow h⟩

/-! ### Sequences of instructions -/

theorem execAll_cons {i : Instr} {s t : State} (h : exec i s = .next t) (rest : List Instr) :
    execAll (i :: rest) s = execAll rest t := by
  rw [execAll, h]

theorem execAll_append {is : List Instr} {s t : State} (h : execAll is s = .next t) (js : List Instr) :
    execAll (is ++ js) s = execAll js t := by
  induction is generalizing s with
  | nil => cases h; rfl
  | cons i is ih =>
    rw [List.cons_append, execAll]
    rw [execAll] at h
    cases hi : exec i s with
    | next u => rw [hi] at h; exact ih h
    | fault k => rw [hi] at h; cases h
    | refused r => rw [hi] at h; cases h

/-! ### Nested calls and returns -/

/-- The stack pointer and the latch after calls the stack has room for. -/
theorem execAll_calls (targets : List (BitVec 12)) (s : State) (h : s.sp.val + targets.length ≤ 16) :
    ∃ t, execAll (targets.map Instr.call) s = .next t ∧ t.sp.val = s.sp.val + targets.length ∧ t.fault = s.fault := by
  induction targets generalizing s with
  | nil => exact ⟨s, rfl, rfl, rfl⟩
  | cons nnn targets ih =>
    rw [List.length_cons] at h ⊢
    have hroom : s.sp.val < 16 := by omega
    have hsp : (called nnn s hroom).sp.val = s.sp.val + 1 := rfl
    obtain ⟨t, ht, htsp, htf⟩ := ih (called nnn s hroom) (by omega)
    exact ⟨t, (execAll_cons (exec_call_eq_called nnn hroom) _).trans ht, by omega, htf⟩

/-- Settles O20: sixteen calls fill an empty stack, and a full stack overflows. -/
theorem seventeenthNestedCallOverflows : Obligations.SeventeenthNestedCallOverflows := by
  intro targets nnn s hlen hsp
  obtain ⟨t, ht, htsp, htf⟩ := execAll_calls targets s (by omega)
  have hfull : t.sp.val = 16 := by omega
  exact ⟨t, ht, hfull, htf, exec_call_faults nnn hfull⟩

/-- `t` is `s` again but for PC, what the last step returned, and dead stack entries. -/
def BackIn (s t : State) : Prop := SameButDeadEntries { s with pc := t.pc, result := t.result } t

theorem backIn_iff (s t : State) :
    BackIn s t ↔ ∃ p r st, t = { s with pc := p, result := r, stack := st } ∧
      ∀ j : Fin 16, j.val < s.sp.val → st[j.val] = s.stack[j.val] := by
  constructor
  · intro h
    obtain ⟨st, ht, hj⟩ := (sameButDead_iff _ _).1 h
    exact ⟨t.pc, t.result, st, ht, hj⟩
  · rintro ⟨p, r, st, rfl, hj⟩
    exact ⟨rfl, hj⟩

/-- A return from a state that is back in the one a call left is back in the caller, at the return address: the entry the call
pushed is live in the callee. -/
theorem exec_ret_of_backIn_called {nnn : BitVec 12} {s u : State} (h : s.sp.val < 16) (hu : BackIn (called nnn s h) u) :
    ∃ t, exec .ret u = .next t ∧ t.pc = s.pc + 2 ∧ BackIn s t := by
  obtain ⟨p, r, st, rfl, hlive⟩ := (backIn_iff _ _).1 hu
  have hsp : (called nnn s h).sp.val = s.sp.val + 1 := rfl
  refine ⟨_, exec_ret_eq_returned (j := ⟨s.sp.val, h⟩) hsp, ?_, (backIn_iff _ _).2 ⟨_, _, st, rfl, fun j hj => ?_⟩⟩
  · exact (hlive ⟨s.sp.val, h⟩ (Nat.lt_succ_self _)).trans ((called_stack nnn h _).trans (if_pos rfl))
  · exact (hlive j (by omega)).trans ((called_stack nnn h j).trans (if_neg (by omega)))

/-- As many returns as calls, by induction on the calls: the first call and the last return enclose the rest. -/
theorem execAll_calls_returns (targets : List (BitVec 12)) (s : State) (h : s.sp.val + targets.length ≤ 16) :
    ∃ t, execAll (targets.map Instr.call ++ List.replicate targets.length .ret) s = .next t ∧
      (targets ≠ [] → t.pc = s.pc + 2) ∧ BackIn s t := by
  induction targets generalizing s with
  | nil => exact ⟨s, rfl, (absurd rfl ·), rfl, fun _ _ => rfl⟩
  | cons nnn targets ih =>
    rw [List.length_cons] at h ⊢
    have hroom : s.sp.val < 16 := by omega
    have hsp : (called nnn s hroom).sp.val = s.sp.val + 1 := rfl
    obtain ⟨u, hexec, -, hu⟩ := ih (called nnn s hroom) (by omega)
    obtain ⟨t, hret, hpc, ht⟩ := exec_ret_of_backIn_called hroom hu
    refine ⟨t, ?_, fun _ => hpc, ht⟩
    rw [List.replicate_succ', List.map_cons, List.cons_append, ← List.append_assoc,
      execAll_cons (exec_call_eq_called nnn hroom), execAll_append hexec, execAll_cons hret, execAll]

/-- Settles O19: the nest is back in its caller, at the return address. -/
theorem callsThenReturnsRestorePc : Obligations.CallsThenReturnsRestorePc := by
  intro targets s hne h
  obtain ⟨t, hexec, hpc, hback⟩ := execAll_calls_returns targets s h
  obtain ⟨p, r, st, rfl, hlive⟩ := (backIn_iff _ _).1 hback
  exact ⟨_, hexec, hpc hne, rfl, hlive, keepsRest_of_transfer p s.sp st r s⟩

end Sys2Proof.Machine
end

section
/-! PROOFS of the statements about the skips (42_skip.md). A skip's target and what it leaves alone are said once, for a condition
and for its negation (`skipIf_spec`, `skipIf_not_spec`); each instruction is one of the two. -/

namespace Sys2Proof.Machine

/-! ### Encoding clauses -/

/-- The encoding clause of a rule holds when the rule's row is in the table (30_encoding.md R78). -/
theorem encodedAs_of_row {pattern mask : Word} {build : Fields → Instr}
    (h : (⟨pattern, mask, build⟩ : Row) ∈ opcodeTable) : EncodedAs pattern mask build :=
  fun _ hw => decodeWord_of_hits h (beq_iff_eq.2 hw)

/-! ### Skips -/

/-- `skip_if` (42_skip.md R119) for a condition that decides `P`. -/
theorem skipIf_spec {c : Bool} {P : Prop} [Decidable P] (h : c = true ↔ P) (s : State) :
    ∃ t, skipIf c s = .next t ∧ t.pc = (if P then s.pc + 4 else s.pc + 2) ∧ KeepsAllButPc s t := by
  have hskip : s.pc + 2 + 2 = s.pc + 4 := BitVec.add_assoc s.pc 2 2
  refine ⟨_, skipIf_eq c s, ?_, keepsAllButPc_setPc _ _ s⟩
  simp only [h, hskip]

/-- `skip_if` for the negation of a condition that decides `P`. -/
theorem skipIf_not_spec {c : Bool} {P : Prop} [Decidable P] (h : c = true ↔ P) (s : State) :
    ∃ t, skipIf (!c) s = .next t ∧ t.pc = (if P then s.pc + 2 else s.pc + 4) ∧ KeepsAllButPc s t := by
  have hnot : (!c) = true ↔ ¬ P := by rw [Bool.not_eq_true', ← h, Bool.not_eq_true]
  simpa only [ite_not] using skipIf_spec hnot s

/-- Settles O21: the two rows are in the table, and the condition is the comparison with NN or its negation. -/
theorem immediateSkipsCompare : Obligations.ImmediateSkipsCompare :=
  ⟨encodedAs_of_row (by simp [opcodeTable, rows0]), encodedAs_of_row (by simp [opcodeTable, rows0]),
    fun s _ _ => ⟨skipIf_spec beq_iff_eq s, skipIf_not_spec beq_iff_eq s⟩⟩

/-- Settles O22: the condition is the comparison of the two registers or its negation. -/
theorem registerSkipsCompare : Obligations.RegisterSkipsCompare := fun s _ _ =>
  ⟨skipIf_spec beq_iff_eq s, skipIf_not_spec beq_iff_eq s⟩

/-! ### The key skips -/

/-- Settles O23: a usable operand is its low nibble, and the condition is the key's cell or its negation. -/
theorem keySkipsTestTheKeypad : Obligations.KeySkipsTestTheKeypad := by
  intro s x k hk husable
  obtain rfl : k = lowNibble (getV s x) := Fin.ext (hk.trans (lowNibble_val _).symm)
  rw [exec, exec, execSkp_eq husable, execSknp_eq husable]
  exact ⟨skipIf_spec Iff.rfl s, skipIf_not_spec Iff.rfl s⟩

/-- Settles O24: such an operand is not usable, and the three instructions raise the fault of an unusable one. -/
theorem highOperandFaultsUnderFaultPolicy : Obligations.HighOperandFaultsUnderFaultPolicy := by
  intro s x hhigh hpolicy
  have hunusable : ¬ ((getV s x).toNat ≤ 15 ∨ s.cfg.highNibble = .mask) := by
    rintro (hle | hmask)
    · omega
    · cases hpolicy.symm.trans hmask
  exact ⟨execSkp_fault hunusable, execSknp_fault hunusable, execLdF_fault hunusable⟩

end Sys2Proof.Machine
end

section
/-! PROOFS of the statements about register loads and arithmetic (43_alu.md). What an instruction that writes only registers leaves
alone is said once (`regsWritten_frame`), and what the two writes of a flag-setting instruction leave once for each of their orders
(`resultThenFlag_spec`, `flagThenResult_spec`); each instruction adds its result and its flag as numbers. -/

namespace Sys2Proof.Machine

/-! ### What an instruction that writes registers leaves -/

/-- `s` after a completed instruction that wrote the registers, and moved the random oracle to position `n`. -/
def regsWritten (v : Vector Byte 16) (n : Nat) (s : State) : State :=
  { s with v := v, draws := n, pc := s.pc + 2, result := .ok .none }

theorem getV_regsWritten (u : State) (n : Nat) (s : State) (r : Reg) : getV (regsWritten u.v n s) r = getV u r := rfl

/-- Such an instruction goes on to the next one and keeps everything but the registers it writes. -/
theorem regsWritten_frame {p : Reg → Prop} {u s : State} (n : Nat) (hu : KeepsRegsBut p s u) :
    (regsWritten u.v n s).pc = s.pc + 2 ∧ KeepsRegsBut p s (regsWritten u.v n s) ∧ (regsWritten u.v n s).i = s.i ∧
      KeepsAllButRegs s (regsWritten u.v n s) :=
  ⟨rfl, hu, rfl, fun _ => rfl, ⟨rfl, rfl⟩, ⟨rfl, rfl⟩, fun _ => rfl, rfl, rfl, rfl⟩

/-! ### One register written -/

theorem setV_keepsRegsBut (x : Reg) (b : Byte) (s : State) : KeepsRegsBut (· = x) s (setV x b s) :=
  fun _ hr => getV_setV_other (Ne.symm hr) b s

/-- An instruction that writes `b`, of which `P` holds, to V[X] and nothing else. -/
theorem setV_spec {P : Byte → Prop} {b : Byte} (h : P b) (x : Reg) (s : State) :
    ∃ t, advance (setV x b s) = .next t ∧ P (getV t x) ∧ t.pc = s.pc + 2 ∧
      KeepsRegsBut (· = x) s t ∧ t.i = s.i ∧ KeepsAllButRegs s t := by
  refine ⟨regsWritten (setV x b s).v s.draws s, rfl, ?_, regsWritten_frame _ (setV_keepsRegsBut x b s)⟩
  rwa [getV_regsWritten, getV_setV_same]

/-- Settles O25: the two rows are in the table, and each writes its operand to V[X]. -/
theorem loadsWriteTheirRegister : Obligations.LoadsWriteTheirRegister :=
  ⟨encodedAs_of_row (by simp [opcodeTable, rows0]), encodedAs_of_row (by simp [opcodeTable, rows8]),
    fun s x y nn => ⟨setV_spec (P := (· = nn)) rfl x s, setV_spec (P := (· = getV s y)) rfl x s⟩⟩

/-- Settles O26: the row is in the table, and the sum of two bytes is their sum modulo 256. -/
theorem addImmediateWrapsWithoutFlag : Obligations.AddImmediateWrapsWithoutFlag :=
  ⟨encodedAs_of_row (by simp [opcodeTable, rows0]), fun s x nn =>
    setV_spec (P := fun b => b.toNat = ((getV s x).toNat + nn.toNat) % 256) (BitVec.toNat_add _ _) x s⟩

/-- The register instructions that combine V[X] and V[Y] bit by bit with `op`. -/
theorem bitwise_spec {op : Bool → Bool → Bool} {x y : Reg} {b : Byte} {s : State}
    (h : ∀ j, b.getLsbD j = op ((getV s x).getLsbD j) ((getV s y).getLsbD j)) :
    ∃ t, advance (setV x b s) = .next t ∧
      (∀ j, j < 8 → (getV t x).getLsbD j = op ((getV s x).getLsbD j) ((getV s y).getLsbD j)) ∧ t.pc = s.pc + 2 ∧
      KeepsRegsBut (· = x) s t ∧ t.i = s.i ∧ KeepsAllButRegs s t :=
  setV_spec (P := fun b => ∀ j, j < 8 → b.getLsbD j = op ((getV s x).getLsbD j) ((getV s y).getLsbD j)) (fun j _ => h j) x s

/-- Settles O27: the bits of an or, an and and an exclusive or. -/
theorem logicWorksBitByBit : Obligations.LogicWorksBitByBit := fun _ _ _ =>
  ⟨bitwise_spec fun _ => BitVec.getLsbD_or, bitwise_spec fun _ => BitVec.getLsbD_and,
    bitwise_spec fun _ => BitVec.getLsbD_xor⟩

/-- Settles O32: the byte drawn is masked, and a byte masked with 0 is 0. -/
theorem randomByteIsMasked : Obligations.RandomByteIsMasked := by
  intro s x nn
  have hx := getV_setV_same x (Config.rand s.draws &&& nn) s
  refine ⟨regsWritten (setV x (Config.rand s.draws &&& nn) s).v (s.draws + 1) s, rfl, hx, rfl, fun hnn => hx.trans ?_,
    regsWritten_frame _ (setV_keepsRegsBut x _ s)⟩
  rw [hnn]
  exact BitVec.and_zero

/-! ### A result and a flag written (43_alu.md R159) -/

/-- 8XY4, 8XY5, 8XY7: the result in V[X] is the number `m`, and the flag stays in VF. -/
theorem resultThenFlag_spec {r flag f : Byte} {m : Nat} (hr : r.toNat = m) (hf : flag = f) (x : Reg) (s : State) :
    ∃ t, advance (setResultThenFlag x r flag s) = .next t ∧ (x ≠ vf → (getV t x).toNat = m) ∧ getV t vf = f ∧
      t.pc = s.pc + 2 ∧ KeepsRegsBut (fun q => q = x ∨ q = vf) s t ∧ t.i = s.i ∧ KeepsAllButRegs s t := by
  refine ⟨regsWritten (setResultThenFlag x r flag s).v s.draws s, rfl, fun hx => ?_, ?_, regsWritten_frame _ fun q hq => ?_⟩
  · rw [getV_regsWritten, getV_setResultThenFlag, if_neg hx, if_pos rfl, hr]
  · rw [getV_regsWritten, getV_setResultThenFlag, if_pos rfl, hf]
  · rw [getV_setResultThenFlag, if_neg (hq ∘ .inr), if_neg (hq ∘ .inl)]

/-- 8XY6, 8XYE: the result, which is the number `m`, stays in V[X], and the flag in VF is the number `f`. -/
theorem flagThenResult_spec {r flag : Byte} {m f : Nat} (hr : r.toNat = m) (hf : flag.toNat = f) (x : Reg) (s : State) :
    ∃ t, advance (setFlagThenResult x r flag s) = .next t ∧ (getV t x).toNat = m ∧ (x ≠ vf → (getV t vf).toNat = f) ∧
      t.pc = s.pc + 2 ∧ KeepsRegsBut (fun q => q = x ∨ q = vf) s t ∧ t.i = s.i ∧ KeepsAllButRegs s t := by
  refine ⟨regsWritten (setFlagThenResult x r flag s).v s.draws s, rfl, ?_, fun hx => ?_, regsWritten_frame _ fun q hq => ?_⟩
  · rw [getV_regsWritten, getV_setFlagThenResult, if_pos rfl, hr]
  · rw [getV_regsWritten, getV_setFlagThenResult, if_neg hx.symm, if_pos rfl, hf]
  · rw [getV_setFlagThenResult, if_neg (hq ∘ .inl), if_neg (hq ∘ .inr)]

/-- Settles O28: the sum modulo 256, and the carry of the old operands. -/
theorem addSetsCarry : Obligations.AddSetsCarry := fun s x _ =>
  resultThenFlag_spec (BitVec.toNat_add _ _) (carryFlag_eq _ _) x s

/-- A difference of bytes as a number (43_alu.md R154, R157). -/
theorem sub_toNat_mod (a b : Byte) : (a - b).toNat = (a.toNat + 256 - b.toNat) % 256 := by
  have := b.isLt
  rw [BitVec.toNat_sub]
  omega

/-- Settles O29: the differences modulo 256, and the not-borrows of the old operands. -/
theorem subtractionsSetNotBorrow : Obligations.SubtractionsSetNotBorrow := fun s x _ =>
  ⟨resultThenFlag_spec (sub_toNat_mod _ _) (notBorrowFlag_eq _ _) x s,
    resultThenFlag_spec (sub_toNat_mod _ _) (notBorrowFlag_eq _ _) x s⟩

/-- A byte shifted left by one as a number (43_alu.md R158). -/
theorem shiftLeft_one_toNat (a : Byte) : (a <<< 1).toNat = 2 * a.toNat % 256 := by
  rw [BitVec.toNat_shiftLeft, Nat.shiftLeft_eq, Nat.mul_comm]

/-- Settles O30: the shifted values, and the bits moved out. -/
theorem shiftsSetTheBitMovedOut : Obligations.ShiftsSetTheBitMovedOut := fun s x _ =>
  ⟨flagThenResult_spec (BitVec.toNat_ushiftRight _ _) (shiftedOutRight_toNat _) x s,
    flagThenResult_spec (shiftLeft_one_toNat _) (shiftedOutLeft_toNat _) x s⟩

end Sys2Proof.Machine
end

section
/-! PROOFS of the statements about the index register and memory access (44_index_memory.md). What an instruction that writes only
I leaves is said once (`setI_spec`); FX33 and FX55 both lead to a `stored` state and FX65 to a `regsWritten` one, of which it is
said once what was written and what was kept; a range check past the end of memory names its fault once (`checkRange_beyond`). -/

namespace Sys2Proof.Machine

/-! ### I written -/

/-- An instruction that writes an address, which is the number `n`, to I and nothing else. -/
theorem setI_spec {a : Addr} {n : Nat} (h : a.toNat = n) (s : State) :
    ∃ t, advance (setI a s) = .next t ∧ t.i.toNat = n ∧ t.pc = s.pc + 2 ∧ KeepsRegs s t ∧ KeepsAllButRegs s t :=
  ⟨_, rfl, h, rfl, fun _ => rfl, fun _ => rfl, ⟨rfl, rfl⟩, ⟨rfl, rfl⟩, fun _ => rfl, rfl, rfl, rfl⟩

/-- Settles O33: the row is in the table, and the zero-extended address is the address. -/
theorem loadIndexZeroExtends : Obligations.LoadIndexZeroExtends :=
  ⟨encodedAs_of_row (by simp [opcodeTable, rows0, rows9]), fun s nnn => setI_spec (zextAddr_toNat nnn) s⟩

/-- An address plus a zero-extended byte, as a number (44_index_memory.md R182). -/
theorem add_zextByte_toNat (a : Addr) (b : Byte) : (a + zextByte b).toNat = (a.toNat + b.toNat) % 65536 := by
  rw [BitVec.toNat_add, zextByte_toNat]

/-- Settles O34: the sum of an address and a byte is their sum modulo 65536. -/
theorem addToIndexWraps : Obligations.AddToIndexWraps := fun s x =>
  setI_spec (add_zextByte_toNat s.i (getV s x)) s

/-- Settles O35: a usable operand is its low nibble, and the glyph of that digit lies in the font. -/
theorem glyphAddressIsInTheFont : Obligations.GlyphAddressIsInTheFont := by
  intro s x hfont husable
  have hglyph := glyphAddr_toNat s.cfg (lowNibble (getV s x)) hfont
  rw [lowNibble_val] at hglyph
  rw [exec, execLdF_eq husable]
  exact setI_spec hglyph s

/-! ### Memory written -/

/-- The k-th byte stored is what the k-th address from I on reads as. -/
theorem readByte_stored_at {s : State} {bytes : List Byte} (k : Nat) (hk : k < bytes.length)
    (h : s.i.toNat + bytes.length ≤ Config.memSize) : readByte (stored bytes s) (s.i.toNat + k) = bytes[k] :=
  readByte_writeBytes_at s.i.toNat k bytes s hk h

/-- A store goes on to the next instruction and keeps everything but the bytes it writes. -/
theorem stored_frame (bytes : List Byte) (s : State) :
    KeepsMemoryBut s.i.toNat bytes.length s (stored bytes s) ∧ (stored bytes s).pc = s.pc + 2 ∧
      KeepsRegs s (stored bytes s) ∧ (stored bytes s).i = s.i ∧ KeepsStack s (stored bytes s) ∧
      KeepsTimers s (stored bytes s) ∧ KeepsScreen s (stored bytes s) ∧ KeepsOutside s (stored bytes s) :=
  ⟨fun b hb => readByte_writeBytes_outside s.i.toNat b bytes s hb, rfl, fun _ => rfl, rfl, ⟨rfl, rfl⟩, ⟨rfl, rfl⟩,
    fun _ => rfl, rfl, rfl, rfl⟩

/-- The decimal digits of a byte as numbers (44_index_memory.md R192): none is cut off by the width of a byte. -/
theorem decimalDigits_toNat (b : Byte) :
    (decimalDigits b)[0].toNat = b.toNat / 100 ∧ (decimalDigits b)[1].toNat = b.toNat / 10 % 10 ∧
      (decimalDigits b)[2].toNat = b.toNat % 10 := by
  have hb := b.isLt
  simp only [decimalDigits, List.getElem_cons_zero, List.getElem_cons_succ, BitVec.toNat_ofNat]
  omega

/-- Settles O36: the state is the one three digits were `stored` in. -/
theorem decimalDigitsAreStored : Obligations.DecimalDigitsAreStored := by
  intro s x hfit
  obtain ⟨hhundreds, htens, hones⟩ := decimalDigits_toNat (getV s x)
  have hread (k : Nat) (hk : k < 3) :
      (readByte (stored (decimalDigits (getV s x)) s) (s.i.toNat + k)).toNat = (decimalDigits (getV s x))[k].toNat :=
    congrArg BitVec.toNat (readByte_stored_at (bytes := decimalDigits (getV s x)) k hk hfit)
  exact ⟨_, exec_ldB_stored x hfit, (hread 0 (by decide)).trans hhundreds, (hread 1 (by decide)).trans htens,
    (hread 2 (by decide)).trans hones, stored_frame (decimalDigits (getV s x)) s⟩

/-- Settles O37: the state is the one V0..VX were `stored` in. -/
theorem registersAreStored : Obligations.RegistersAreStored := by
  intro s x hfit
  have hlen := firstRegs_length s x
  have hfit' : s.i.toNat + (firstRegs s x).length ≤ Config.memSize := hlen.symm ▸ hfit
  refine ⟨_, exec_storeRegs_stored x hfit', fun k hk => ?_, hlen ▸ stored_frame (firstRegs s x) s⟩
  rw [readByte_stored_at k.val (by omega) hfit', firstRegs_getElem]

/-! ### Registers loaded from memory -/

/-- The first `n` registers hold the `n` bytes loaded, and every other what it held. -/
theorem getV_loadFrom_readBytes (s : State) (a n : Nat) (r : Reg) :
    getV (setVs (loadFrom 0 (readBytes s a n) s.v) s) r = if r.val < n then readByte s (a + r.val) else getV s r := by
  rw [getV, setVs_v, loadFrom_getElem _ _ _ _ r.isLt]
  by_cases hr : r.val < n
  · rw [dif_pos (by rw [readBytes_length]; omega), if_pos hr, readBytes_getElem, Nat.sub_zero]
  · rw [dif_neg (by rw [readBytes_length]; omega), if_neg hr, getV]

/-- Settles O38: the bytes at I..I+X are loaded into V0..VX, and nothing else is written. -/
theorem registersAreLoaded : Obligations.RegistersAreLoaded := by
  intro s x hfit
  have hload := getV_loadFrom_readBytes s s.i.toNat (x.val + 1)
  refine ⟨regsWritten (setVs (loadFrom 0 (readBytes s s.i.toNat (x.val + 1)) s.v) s).v s.draws s,
    execLoadRegs_eq x hfit, fun k hk => ?_, ?_⟩
  · rw [getV_regsWritten, hload, if_pos (Nat.lt_succ_of_le hk)]
  · obtain ⟨hpc, hregs, hi, hrest⟩ := regsWritten_frame (p := fun r => r.val ≤ x.val) s.draws
      fun r hr => (hload r).trans (if_neg (by omega))
    exact ⟨hregs, hpc, hi, hrest⟩

/-! ### Access beyond memory -/

/-- A check that reaches past the end of memory names the base, or 4096 when the base lies below it. -/
theorem checkRange_beyond {base a : Addr} {n : Nat} (ha : a.toNat = max base.toNat 4096) (h0 : 0 < n)
    (h : 4096 < base.toNat + n) : checkRange base n = some (.invalidAddress a) := by
  rw [checkRange_eq_some base n h0 h]
  congr 2
  apply BitVec.eq_of_toNat_eq
  rw [ha]
  split
  · exact (max_eq_left ‹_›).symm
  · exact (max_eq_right (Nat.le_of_not_le ‹_›)).symm

section
variable {s : State} {kind : Fault}

theorem execLdB_fault (x : Reg) (h : checkRange s.i 3 = some kind) : execLdB x s = raise kind s := by
  rw [execLdB, h]

theorem execStoreRegs_fault (x : Reg) (h : checkRange s.i (x.val + 1) = some kind) :
    execStoreRegs x s = raise kind s := by
  rw [execStoreRegs, h]

theorem execLoadRegs_fault (x : Reg) (h : checkRange s.i (x.val + 1) = some kind) :
    execLoadRegs x s = raise kind s := by
  rw [execLoadRegs, h]

theorem execDrw_fault (x y : Reg) (n : Fin 16) (h : checkRange s.i n.val = some kind) :
    execDrw x y n s = raise kind s := by
  rw [execDrw, h]

end

/-- Settles O39: each of the four raises what its range check names. -/
theorem accessBeyondMemoryFaults : Obligations.AccessBeyondMemoryFaults := by
  intro s x y n a ha
  refine ⟨fun h => ?_, fun h => ?_, fun h => ?_, fun h0 h => ?_⟩
  · exact execLdB_fault x (checkRange_beyond ha (by decide) h)
  · exact execStoreRegs_fault x (checkRange_beyond ha x.val.succ_pos h)
  · exact execLoadRegs_fault x (checkRange_beyond ha x.val.succ_pos h)
  · exact execDrw_fault x y n (checkRange_beyond ha h0 h)

end Sys2Proof.Machine
end

section
/-! PROOFS of the statement about the timer instructions (45_timers.md). FX07 is one more write of a register (`setV_spec`); what
an instruction that writes a timer leaves is said once, for both timers (`timersWritten_frame`). -/

namespace Sys2Proof.Machine

/-- `s` after a completed instruction that left DT at `d` and ST at `e`. -/
def timersWritten (d e : Byte) (s : State) : State :=
  { s with dt := d, st := e, pc := s.pc + 2, result := .ok .none }

theorem exec_ldDtVx_timersWritten (x : Reg) (s : State) :
    exec (.ldDtVx x) s = .next (timersWritten (getV s x) s.st s) := rfl

theorem exec_ldStVx_timersWritten (x : Reg) (s : State) :
    exec (.ldStVx x) s = .next (timersWritten s.dt (getV s x) s) := rfl

/-- Such an instruction keeps everything but the timers and PC. -/
theorem timersWritten_frame (d e : Byte) (s : State) :
    KeepsRegs s (timersWritten d e s) ∧ (timersWritten d e s).i = s.i ∧ KeepsMemory s (timersWritten d e s) ∧
      KeepsStack s (timersWritten d e s) ∧ KeepsScreen s (timersWritten d e s) ∧ KeepsOutside s (timersWritten d e s) :=
  ⟨fun _ => rfl, rfl, fun _ => rfl, ⟨rfl, rfl⟩, fun _ => rfl, rfl, rfl, rfl⟩

/-- Settles O42: the three rows are in the table; FX07 writes a register, FX15 and FX18 write one timer and keep the other. -/
theorem timersMoveWhole : Obligations.TimersMoveWhole := by
  refine ⟨encodedAs_of_row ?_, encodedAs_of_row ?_, encodedAs_of_row ?_, fun s x => ⟨?fx07, ?fx15, ?fx18⟩⟩
  case fx07 => exact setV_spec (P := (· = s.dt)) rfl x s
  case fx15 => exact ⟨_, exec_ldDtVx_timersWritten x s, rfl, rfl, rfl, timersWritten_frame _ _ s⟩
  case fx18 => exact ⟨_, exec_ldStVx_timersWritten x s, rfl, rfl, rfl, timersWritten_frame _ _ s⟩
  all_goals simp [opcodeTable, rowsF]

end Sys2Proof.Machine
end

section
/-! PROOFS of the statements about the display (46_display.md). What 00E0 and DXYN leave alone is said once, for both
(`screenWritten_frame`); the cells of a sprite are the cells its pixels fall on (`mem_drawnCells_iff`). -/

namespace Sys2Proof.Machine

/-! ### The toggle -/

@[simp] theorem toggle_flag (q : Nat × Nat) (f : Framebuffer) : (toggle q f).2 = getPixel f (wrapPixel q) := rfl

theorem toggle_toggle (q : Nat × Nat) (f : Framebuffer) : (toggle q (toggle q f).1).1 = f := by
  apply framebuffer_ext
  intro p
  by_cases hp : wrapPixel q = p
  · simp [getPixel_toggle, hp]
  · simp [getPixel_toggle, hp]

/-- A toggle depends on its coordinates only through the cell they fall on (46_display.md R222). -/
theorem toggle_congr {q r : Nat × Nat} (h : wrapPixel q = wrapPixel r) (f : Framebuffer) : toggle q f = toggle r f := by
  rw [toggle, toggle, h]

theorem wrapPixel_add_size (x y : Nat) : wrapPixel (64 + x, 32 + y) = wrapPixel (x, y) := by
  simp [wrapPixel]

/-- Settles O46: a toggle negates its own cell, its flag is the old value of that cell, and the cell is the coordinates modulo
the size of the screen. -/
theorem toggleIsItsOwnInverse : Obligations.ToggleIsItsOwnInverse := by
  intro x y f
  refine ⟨toggle_toggle (x, y) f, ?_, toggle_congr (wrapPixel_add_size x y) f⟩
  rw [toggle_flag, toggle_flag, getPixel_toggle, if_pos rfl]

/-! ### What a display instruction leaves alone -/

/-- `s` after a completed instruction that left the framebuffer at `f` and the registers at `v`, and reported `e`. -/
def screenWritten (f : Framebuffer) (v : Vector Byte 16) (e : Effect) (s : State) : State :=
  { s with fb := f, v := v, pc := s.pc + 2, result := .ok e }

theorem screenWritten_frame (f : Framebuffer) (v : Vector Byte 16) (e : Effect) (s : State) :
    (screenWritten f v e s).i = s.i ∧ KeepsMemory s (screenWritten f v e s) ∧ KeepsStack s (screenWritten f v e s) ∧
      KeepsTimers s (screenWritten f v e s) ∧ KeepsOutside s (screenWritten f v e s) :=
  ⟨rfl, fun _ => rfl, ⟨rfl, rfl⟩, ⟨rfl, rfl⟩, rfl, rfl, rfl⟩

/-! ### 00E0 -/

theorem exec_cls_screenWritten (s : State) :
    exec .cls s = .next (screenWritten blankScreen s.v (.toggled (litCells s.fb) false) s) := rfl

/-- Settles O44: the blank screen has no cell on, and the report lists the cells that were. -/
theorem clearTurnsEveryCellOff : Obligations.ClearTurnsEveryCellOff := fun s =>
  ⟨_, litCells s.fb, exec_cls_screenWritten s, getPixel_blankScreen, rfl, litCells_nodup s.fb, mem_litCells s.fb, rfl,
    fun _ => rfl, screenWritten_frame _ _ _ s⟩

/-! ### DXYN -/

section
variable (x y : Reg) (n : Fin 16) (s : State)

/-- The cells the pixels of one DXYN fall on, in the order they are drawn: what it reports. -/
def drawnCells : List Pixel := (drawnPixels x y n s).map wrapPixel

theorem drawnCells_nodup : (drawnCells x y n s).Nodup := drawnPixels_nodup x y n s

/-- They are the cells the sprite at I covers (46_display.md R224). -/
theorem mem_drawnCells_iff (p : Pixel) : p ∈ drawnCells x y n s ↔ SpriteCovers s x y n p := by
  simp only [drawnCells, List.mem_map, mem_drawnPixels]
  constructor
  · rintro ⟨q, ⟨r, c, hr, hc, hbit, rfl⟩, rfl⟩
    exact ⟨r, c, hr, hc, hbit, rfl, rfl⟩
  · rintro ⟨r, c, hr, hc, hbit, hx, hy⟩
    exact ⟨_, ⟨r, c, hr, hc, hbit, rfl⟩, Prod.ext (Fin.ext hx.symm) (Fin.ext hy.symm)⟩

/-- The framebuffer a DXYN leaves. -/
def drawnScreen : Framebuffer := (toggleAll (drawnPixels x y n s) s.fb).1

/-- Whether a DXYN turned a cell off. -/
def drawCollides : Bool := (toggleAll (drawnPixels x y n s) s.fb).2

theorem getPixel_drawnScreen (p : Pixel) :
    getPixel (drawnScreen x y n s) p = if p ∈ drawnCells x y n s then !getPixel s.fb p else getPixel s.fb p :=
  (toggleAll_spec _ s.fb (drawnPixels_nodup x y n s)).1 p

theorem drawCollides_iff : drawCollides x y n s = true ↔ ∃ p, SpriteCovers s x y n p ∧ getPixel s.fb p = true := by
  have hany : drawCollides x y n s = (drawnCells x y n s).any (getPixel s.fb) :=
    (toggleAll_spec _ s.fb (drawnPixels_nodup x y n s)).2
  simp only [hany, List.any_eq_true, mem_drawnCells_iff]

end

theorem exec_drw_screenWritten (x y : Reg) {n : Fin 16} {s : State} (h : n.val = 0 ∨ s.i.toNat + n.val ≤ 4096) :
    exec (.drw x y n) s = .next (screenWritten (drawnScreen x y n s) (setV vf (collisionFlag (drawCollides x y n s)) s).v
      (.toggled (drawnCells x y n s) (drawCollides x y n s)) s) :=
  execDrw_eq x y n h

/-- Settles O45: the pixels fall on distinct cells, so each cell the sprite covers is toggled once, and the flag is whether one
of them was on. -/
theorem drawTogglesTheCoveredCells : Obligations.DrawTogglesTheCoveredCells := by
  intro s x y n hfit
  refine ⟨_, drawnCells x y n s, drawCollides x y n s, exec_drw_screenWritten x y hfit, fun p hp => ?_, fun p hp => ?_,
    drawCollides_iff x y n s, ?_, rfl, drawnCells_nodup x y n s, mem_drawnCells_iff x y n s, rfl, ?_,
    screenWritten_frame _ _ _ s⟩
  · exact (getPixel_drawnScreen x y n s p).trans (if_pos ((mem_drawnCells_iff x y n s p).2 hp))
  · exact (getPixel_drawnScreen x y n s p).trans (if_neg (mt (mem_drawnCells_iff x y n s p).1 hp))
  · exact getV_setV_same vf (collisionFlag (drawCollides x y n s)) s
  · exact setV_keepsRegsBut vf (collisionFlag (drawCollides x y n s)) s

end Sys2Proof.Machine
end

section
/-! PROOFS of the statements about faults and the calls of the host (60_exceptions.md). Which instruction raises which fault is
said once (`RaisedBy`); what n ticks leave, and what n steps at a jump to itself leave, is written out as one state. -/

namespace Sys2Proof.Machine

/-! ### The fault of an instruction -/

/-- The faults an instruction may raise in `s`: the rows of 60_exceptions.md R250 that name an instruction. -/
inductive RaisedBy (s : State) : Instr → Fault → Prop
  | overflow (nnn : BitVec 12) : s.sp.val = 16 → RaisedBy s (.call nnn) .stackOverflow
  | underflow : s.sp.val = 0 → RaisedBy s .ret .stackUnderflow
  | range {i : Instr} {n : Nat} {kind : Fault} : (i matches .drw .. | .ldB _ | .storeRegs _ | .loadRegs _) = true →
      checkRange s.i n = some kind → RaisedBy s i kind
  | operand {i : Instr} : (i matches .skp _ | .sknp _ | .ldF _) = true → s.cfg.highNibble = .fault →
      RaisedBy s i (.operandOutOfRange (encode i))

/-- A nibble operand is unusable under the policy `fault` only (42_skip.md R132). -/
theorem policy_of_unusable {s : State} {x : Reg} (h : ¬ ((getV s x).toNat ≤ 15 ∨ s.cfg.highNibble = .mask)) :
    s.cfg.highNibble = .fault :=
  (operand_fits h (.inl rfl)).1

/-- An instruction raises a fault of its own, or it completes. -/
theorem exec_raises_own_or_completes (i : Instr) (s : State) :
    (∃ kind, exec i s = raise kind s ∧ RaisedBy s i kind) ∨ (∃ t e, exec i s = .next t ∧ t.result = .ok e) := by
  cases i
  case ret =>
    by_cases h : s.sp.val = 0
    · exact .inl ⟨_, execRet_underflow h, .underflow h⟩
    · exact .inr ⟨_, _, execRet_eq (Nat.pos_of_ne_zero h), rfl⟩
  case call nnn =>
    by_cases h : s.sp.val = 16
    · exact .inl ⟨_, execCall_overflow nnn h, .overflow nnn h⟩
    · have hroom : s.sp.val < 16 := by have := s.sp.isLt; omega
      exact .inr ⟨_, _, execCall_eq nnn hroom, rfl⟩
  case skp x =>
    by_cases h : (getV s x).toNat ≤ 15 ∨ s.cfg.highNibble = .mask
    · exact .inr ⟨_, _, execSkp_eq h, rfl⟩
    · exact .inl ⟨_, execSkp_fault h, .operand rfl (policy_of_unusable h)⟩
  case sknp x =>
    by_cases h : (getV s x).toNat ≤ 15 ∨ s.cfg.highNibble = .mask
    · exact .inr ⟨_, _, execSknp_eq h, rfl⟩
    · exact .inl ⟨_, execSknp_fault h, .operand rfl (policy_of_unusable h)⟩
  case ldF x =>
    by_cases h : (getV s x).toNat ≤ 15 ∨ s.cfg.highNibble = .mask
    · exact .inr ⟨_, _, execLdF_eq h, rfl⟩
    · exact .inl ⟨_, execLdF_fault h, .operand rfl (policy_of_unusable h)⟩
  case ldB | storeRegs | loadRegs | drw =>
    simp only [exec, execLdB, execStoreRegs, execLoadRegs, execDrw]
    split
    · exact .inl ⟨_, rfl, .range rfl ‹_›⟩
    · exact .inr ⟨_, _, rfl, rfl⟩
  all_goals exact .inr ⟨_, _, rfl, rfl⟩

/-- The address a failing range check names: the base, or 4096 when the base lies below it (44_index_memory.md R184). -/
theorem checkRange_address {base : Addr} {n : Nat} {kind : Fault} (h : checkRange base n = some kind) :
    ∃ a : Addr, kind = .invalidAddress a ∧ a.toNat = max base.toNat 4096 := by
  obtain ⟨-, -, rfl⟩ := checkRange_fault h
  refine ⟨_, rfl, ?_⟩
  split
  · exact (max_eq_left ‹_›).symm
  · exact (max_eq_right (Nat.le_of_not_le ‹_›)).symm

/-- Settles O13: a completed instruction returns no fault, and each fault an instruction raises is its own. -/
theorem instructionsRaiseOnlyTheirOwnFault : Obligations.InstructionsRaiseOnlyTheirOwnFault := by
  intro i s t kind ht hr
  rcases exec_raises_own_or_completes i s with ⟨k, he, hk⟩ | ⟨u, e, he, hu⟩
  · cases he.symm.trans ht
    cases hr
    cases hk with
    | overflow nnn h => exact ⟨rfl, h⟩
    | underflow h => exact ⟨rfl, h⟩
    | range hi h =>
      obtain ⟨a, rfl, ha⟩ := checkRange_address h
      exact ⟨hi, ha⟩
    | operand hi h => exact ⟨hi, rfl, h⟩
  · cases he.symm.trans ht
    cases hu.symm.trans hr

/-! ### The calls of the host -/

/-- Settles O53: a step by O51, a reset as a new session, and no other call writes a field the invariant reads. -/
theorem hostCallsKeepTheInvariant : Obligations.HostCallsKeepTheInvariant := hostCall_keeps_inv

theorem iterate_countDown_toNat (n : Nat) (b : Byte) : (countDown^[n] b).toNat = b.toNat - n := by
  induction n generalizing b with
  | zero => rfl
  | succ n ih => rw [Function.iterate_succ_apply, ih, countDown_toNat, Nat.sub_sub, Nat.add_comm]

/-- What n ticks leave: each timer counted down n times, and the rest as it was. -/
theorem runCalls_ticks (n : Nat) (s : State) :
    runCalls (List.replicate n .tick) s = { s with dt := countDown^[n] s.dt, st := countDown^[n] s.st } := by
  induction n generalizing s with
  | zero => rfl
  | succ n ih => exact ih (tick s)

/-- Settles O43: n counts down take n off a timer, or all of it. -/
theorem ticksCountTimersDown : Obligations.TicksCountTimersDown := by
  intro n s
  rw [runCalls_ticks]
  exact ⟨iterate_countDown_toNat n s.dt, iterate_countDown_toNat n s.st, rfl⟩

/-- The rows of the framebuffer one after another (60_exceptions.md R266). -/
theorem snapshot_eq_flatten (s : State) : snapshot s = s.fb.flatten.toList :=
  calc snapshot s = (s.fb.toArray.toList.map fun row => row.toArray.toList).flatten := List.flatMap_def
    _ = (s.fb.toArray.map Vector.toArray).flatten.toList := by
      simp only [Array.toList_flatten, Array.toList_map, List.map_map, Function.comp_def]

theorem snapshot_length (s : State) : (snapshot s).length = 2048 := by
  rw [snapshot_eq_flatten, Vector.length_toList]

theorem snapshot_getElem? (s : State) (p : Pixel) :
    (snapshot s)[p.2.val * 64 + p.1.val]? = some (getPixel s.fb p) := by
  obtain ⟨⟨x, hx⟩, ⟨y, hy⟩⟩ := p
  have hlt : y * 64 + x < 32 * 64 := by omega
  have hrow : (y * 64 + x) / 64 = y := by omega
  have hcol : (y * 64 + x) % 64 = x := by omega
  simp only [snapshot_eq_flatten, Vector.getElem?_toList, Vector.getElem?_eq_getElem hlt, Vector.getElem_flatten,
    hrow, hcol, getPixel]

/-- Settles O59: `set_keys` is that update, and cell (x, y) stands at column x of row y of the grid. -/
theorem keysAndSnapshotOfTheHost : Obligations.KeysAndSnapshotOfTheHost := fun s _ =>
  ⟨rfl, snapshot s, rfl, snapshot_length s, snapshot_getElem? s⟩

/-! ### A jump to itself -/

/-- One step at a jump to itself writes what the call returns and nothing else (41_control_flow.md R102). -/
theorem step_atSelfJump {s : State} (h : s.AtSelfJump) : step s = .next { s with result := .ok .none } := by
  obtain ⟨hl, hpc, hodd, nnn, hnnn, hd⟩ := h
  have htarget : zextAddr nnn = s.pc := BitVec.eq_of_toNat_eq ((zextAddr_toNat nnn).trans hnnn)
  rw [step_of_decode_ok hl ((checkFetch_eq_none s).2 ⟨hpc, hodd⟩) hd, exec, execJp, jumpTo_eq, htarget]

theorem hostCall_step_atSelfJump {s : State} (h : s.AtSelfJump) :
    (hostCall .step s).1 = { s with result := .ok .none } := by
  rw [hostCall, step_atSelfJump h]

/-- Any number of steps at a jump to itself leaves what one leaves. -/
theorem runCalls_steps_atSelfJump (n : Nat) {s : State} (h : s.AtSelfJump) :
    runCalls (List.replicate (n + 1) .step) s = { s with result := .ok .none } := by
  induction n generalizing s with
  | zero => exact hostCall_step_atSelfJump h
  | succ n ih =>
    have hstay : State.AtSelfJump { s with result := .ok .none } := h
    rw [List.replicate_succ, runCalls, hostCall_step_atSelfJump h, ih hstay]

/-- Settles O60: no step at all leaves the state, and one or more leave the same state. -/
theorem selfJumpStaysPut : Obligations.SelfJumpStaysPut := by
  intro n s h
  cases n with
  | zero => exact ⟨rfl, fun h0 => absurd h0 (Nat.lt_irrefl 0)⟩
  | succ n =>
    rw [runCalls_steps_atSelfJump n h]
    exact ⟨rfl, fun _ => rfl⟩

end Sys2Proof.Machine
end

section
/-! PROOFS of the statements about `create` and `hard_reset` (70_reset_and_hazards.md). The state a session starts in is named
once (`sessionStart`), with what each address of it reads as; both calls answer that state or the refusal. -/

namespace Sys2Proof.Machine

/-! ### The state a session starts in -/

/-- The reset state with the ROM placed at 0x200 (70_reset_and_hazards.md R290). -/
def sessionStart (c : Params) (d : Nat) (rom : List Byte) : State :=
  { State.reset with cfg := c, draws := d, mem := Memory.writeAll c [] Config.programBase rom }

section
variable {c : Params} {rom : List Byte}

theorem create_eq_sessionStart (c : Params) (d : Nat) (h : rom.length ≤ 3584) :
    create c d rom = .next (sessionStart c d rom) :=
  create_fits c d ((Rom.wf_iff rom).2 h)

theorem readByte_sessionStart_rom (c : Params) (d : Nat) (h : rom.length ≤ 3584) (k : Nat) (hk : k < rom.length) :
    readByte (sessionStart c d rom) (0x200 + k) = rom[k] :=
  readByte_writeBytes_at 0x200 k rom { State.reset with cfg := c } hk (by simp only [Config.memSize]; omega)

/-- Outside the ROM an address reads as at session creation (20_memory.md R55). -/
theorem readByte_sessionStart_outside (d : Nat) {a : Nat} (ha : a < 0x200 ∨ 0x200 + rom.length ≤ a) :
    readByte (sessionStart c d rom) a = Memory.unlisted c a :=
  Memory.read_writeAll_outside c rom [] 0x200 a ha

/-- The ROM does not reach into the font: sound parameters place it below 0x200 (20_memory.md R54). -/
theorem readByte_sessionStart_font (d : Nat) (hc : c.wf = true) (k : Fin 80) :
    readByte (sessionStart c d rom) (c.fontBase.toNat + k.val) = c.fontData[k.val] := by
  have hbelow : c.fontBase.toNat + 80 ≤ 0x200 := of_decide_eq_true hc
  rw [readByte_sessionStart_outside d (.inl (by omega)), unlisted_font]

theorem readByte_sessionStart_zero (d : Nat) {a : Nat} (hrom : ¬ (0x200 ≤ a ∧ a < 0x200 + rom.length))
    (hfont : ¬ (c.fontBase.toNat ≤ a ∧ a < c.fontBase.toNat + 80)) : readByte (sessionStart c d rom) a = 0 := by
  rw [readByte_sessionStart_outside d (by omega), unlisted_outside_font (by omega)]

end

/-- Settles O56: the session starts in `sessionStart`. -/
theorem createPlacesTheRom : Obligations.CreatePlacesTheRom := fun c d rom hc h =>
  ⟨sessionStart c d rom, create_eq_sessionStart c d h, readByte_sessionStart_rom c d h, readByte_sessionStart_font d hc,
    fun _ _ => readByte_sessionStart_zero d, rfl⟩

/-! ### The host's call -/

theorem hostCall_hardReset_next {rom : List Byte} {s t : State} (h : hardReset rom s = .next t) :
    hostCall (.hardReset rom) s = (t, .done) := by
  rw [hostCall, h]

theorem hostCall_hardReset_refused {rom : List Byte} {s : State} {r : Refusal} (h : hardReset rom s = .refused r) :
    hostCall (.hardReset rom) s = (s, .refused r) := by
  rw [hostCall, h]

/-- A hard reset sees of the old state only the parameters and the position of the oracle (log entry 29). -/
theorem hardReset_eq_sessionStart {rom : List Byte} (s : State) (h : rom.length ≤ 3584) :
    hardReset rom s = .next (sessionStart s.cfg s.draws rom) :=
  create_eq_sessionStart s.cfg s.draws h

/-- Settles O57: a hard reset leaves `sessionStart` with the session's parameters and position. -/
theorem hardResetForgetsTheOldState : Obligations.HardResetForgetsTheOldState := by
  intro s rom
  refine ⟨rfl, fun h => ?_⟩
  have hreset := hardReset_eq_sessionStart s h
  refine ⟨sessionStart s.cfg s.draws rom, hreset, rfl, rfl, readByte_sessionStart_rom s.cfg s.draws h, fun hc => ?memory, rfl,
    fun u hcfg hdraws => ?forgets, congrArg Prod.fst (hostCall_hardReset_next hreset)⟩
  case memory =>
    exact ⟨readByte_sessionStart_font s.draws hc, fun _ _ => readByte_sessionStart_zero s.draws⟩
  case forgets =>
    rw [hardReset_eq_sessionStart u h, hcfg, hdraws]

/-- Settles O58: such a ROM does not fit, and the host's call hands on the refusal of `create` (decision D18). -/
theorem oversizedRomIsRefused : Obligations.OversizedRomIsRefused := by
  intro c d rom s h
  have hbig : ¬ Rom.wf rom = true := fun hw => absurd ((Rom.wf_iff rom).1 hw) (Nat.not_le.2 h)
  exact ⟨create_too_large c d hbig, hostCall_hardReset_refused (create_too_large s.cfg s.draws hbig)⟩

end Sys2Proof.Machine
end
